-- ==== Sys2Proof/Word.lean ====
section
/-! DEFINITION. The word types of the core (00_scope.md R9, R11, R12; 10_state.md R21, R40). -/

namespace Sys2Proof

/-- A 16-bit unsigned word: a register, an address, a memory cell, an instruction (00_scope.md R9, R12). -/
abbrev Word := BitVec 16

/-- An 8-bit character code, as the input and output channels carry it (10_state.md R40, 43_trap_system.md R185). -/
abbrev Byte := BitVec 8

/-- The 3-bit index of a general register, R0 to R7 (10_state.md R21). -/
abbrev Reg := BitVec 3

end Sys2Proof
end

