-- ==== Sys2Proof/Syntax.lean ====
section
/-! DEFINITION. The instructions: one constructor for each of the 19 rows of spec/opcode_table.json, in the table's order.

Operands keep the names and widths of 30_encoding.md R84-R92. The bits a row ignores (R95) are operands as well, so that a word and
its instruction say the same thing: RTI, RESERVED and TRAP record the faulting word whole (60_exceptions.md R212). Log 12. -/

namespace Sys2Proof

/-- An instruction of the core (30_encoding.md R82). -/
inductive Instr where
  /-- BR, format R86: branch if a set bit of nzp names COND. -/
  | br (n z p : Bool) (pcOffset9 : BitVec 9)
  /-- ADD in register mode, format R84. `ignored` is ir[4:3]. -/
  | addReg (dr sr1 : Reg) (ignored : BitVec 2) (sr2 : Reg)
  /-- ADD in immediate mode, format R84. -/
  | addImm (dr sr1 : Reg) (imm5 : BitVec 5)
  /-- LD, format R89. -/
  | ld (dr : Reg) (pcOffset9 : BitVec 9)
  /-- ST, format R89. -/
  | st (sr : Reg) (pcOffset9 : BitVec 9)
  /-- JSR, format R88 with ir[11] = 1. -/
  | jsr (pcOffset11 : BitVec 11)
  /-- JSRR, format R88 with ir[11] = 0. `ignoredHi` is ir[10:9], `ignoredLo` is ir[5:0]. -/
  | jsrr (ignoredHi : BitVec 2) (baseR : Reg) (ignoredLo : BitVec 6)
  /-- AND in register mode, format R84. `ignored` is ir[4:3]. -/
  | andReg (dr sr1 : Reg) (ignored : BitVec 2) (sr2 : Reg)
  /-- AND in immediate mode, format R84. -/
  | andImm (dr sr1 : Reg) (imm5 : BitVec 5)
  /-- LDR, format R90. -/
  | ldr (dr baseR : Reg) (offset6 : BitVec 6)
  /-- STR, format R90. -/
  | str (sr baseR : Reg) (offset6 : BitVec 6)
  /-- RTI, format R92. `ignored` is ir[11:0]. -/
  | rti (ignored : BitVec 12)
  /-- NOT, format R85. `ignored` is ir[5:0]. -/
  | not (dr sr1 : Reg) (ignored : BitVec 6)
  /-- LDI, format R89. -/
  | ldi (dr : Reg) (pcOffset9 : BitVec 9)
  /-- STI, format R89. -/
  | sti (sr : Reg) (pcOffset9 : BitVec 9)
  /-- JMP, format R87. `ignoredHi` is ir[11:9], `ignoredLo` is ir[5:0]. -/
  | jmp (ignoredHi : BitVec 3) (baseR : Reg) (ignoredLo : BitVec 6)
  /-- The reserved opcode 0xD, format R92. `ignored` is ir[11:0]. -/
  | reserved (ignored : BitVec 12)
  /-- LEA, format R89. -/
  | lea (dr : Reg) (pcOffset9 : BitVec 9)
  /-- TRAP, format R91. `ignored` is ir[11:8]. -/
  | trap (ignored : BitVec 4) (trapvect8 : BitVec 8)
deriving DecidableEq, Repr

end Sys2Proof
end

