-- ==== Sys2Proof/WellFormed.lean ====
section
/-! DEFINITION. Which instructions are legal (30_encoding.md R96).

Operand widths are in the types, so no operand can be out of range (93_implementation_defined.md U4). What is left to check is the
spec's list of illegal encodings: three classes of encoding end execution with a fatal fault, and no other does. Decoding never
fails (R94) and the illegal ones are executed too, up to their fault: `wellFormed` restricts no meaning. Log 22. -/

namespace Sys2Proof

/-- The vectors 0x20 to 0x25 select a routine (30_encoding.md R96, 43_trap_system.md R181). -/
def knownVector (trapvect8 : BitVec 8) : Bool :=
  decide (0x20 ≤ trapvect8.toNat) && decide (trapvect8.toNat ≤ 0x25)

/-- An instruction outside the three classes of illegal encoding of 30_encoding.md R96. -/
def Instr.wellFormed : Instr → Bool
  | .rti _ => false
  | .reserved _ => false
  | .trap _ trapvect8 => knownVector trapvect8
  | .br _ _ _ _ | .addReg _ _ _ _ | .addImm _ _ _ | .ld _ _ | .st _ _ | .jsr _ | .jsrr _ _ _
  | .andReg _ _ _ _ | .andImm _ _ _ | .ldr _ _ _ | .str _ _ _ | .not _ _ _ | .ldi _ _ | .sti _ _
  | .jmp _ _ _ | .lea _ _ => true

end Sys2Proof
end

