-- ==== Sys2Proof/Decode.lean ====
section
/-! DEFINITION. The decoder, the encoder, and the table of rows (30_encoding.md R80-R98). The opcode numbers and field positions
are those of R82-R92, which the spec takes from the published LC-3 (92_eei_decisions.md D2). Log 11. -/

namespace Sys2Proof

/-! ## Fields of an instruction word -/

/-- ir[15:12], the opcode (R81). -/
def opcodeField (ir : Word) : BitVec 4 := ir.extractLsb' 12 4

/-- ir[11:9], DR of the loads and operates, SR of the stores (R83). -/
def drField (ir : Word) : Reg := ir.extractLsb' 9 3

/-- ir[8:6], SR1 or BaseR (R83). -/
def baseField (ir : Word) : Reg := ir.extractLsb' 6 3

/-- ir[2:0], SR2 (R83). -/
def sr2Field (ir : Word) : Reg := ir.extractLsb' 0 3

/-- ir[4:0], imm5 (R84, R93). -/
def imm5Field (ir : Word) : BitVec 5 := ir.extractLsb' 0 5

/-- ir[5:0], offset6, or bits that NOT, JMP and JSRR ignore (R85, R87, R88, R90). -/
def offset6Field (ir : Word) : BitVec 6 := ir.extractLsb' 0 6

/-- ir[8:0], PCoffset9 (R86, R89). -/
def offset9Field (ir : Word) : BitVec 9 := ir.extractLsb' 0 9

/-- ir[10:0], PCoffset11 (R88). -/
def offset11Field (ir : Word) : BitVec 11 := ir.extractLsb' 0 11

/-- ir[7:0], the trap vector (R91). -/
def vectorField (ir : Word) : BitVec 8 := ir.extractLsb' 0 8

/-- ir[11:0], the bits RTI and the reserved opcode ignore (R92). -/
def low12Field (ir : Word) : BitVec 12 := ir.extractLsb' 0 12

/-! ## The decoder -/

/-- The instruction of a word: total, by the opcode and, for opcodes 0x1, 0x5 and 0x4, one mode bit (R82, R94). -/
def decode (ir : Word) : Instr :=
  if opcodeField ir = 0x0#4 then .br ir[11] ir[10] ir[9] (offset9Field ir)
  else if opcodeField ir = 0x1#4 then
    if ir[5] then .addImm (drField ir) (baseField ir) (imm5Field ir)
    else .addReg (drField ir) (baseField ir) (ir.extractLsb' 3 2) (sr2Field ir)
  else if opcodeField ir = 0x2#4 then .ld (drField ir) (offset9Field ir)
  else if opcodeField ir = 0x3#4 then .st (drField ir) (offset9Field ir)
  else if opcodeField ir = 0x4#4 then
    if ir[11] then .jsr (offset11Field ir)
    else .jsrr (ir.extractLsb' 9 2) (baseField ir) (offset6Field ir)
  else if opcodeField ir = 0x5#4 then
    if ir[5] then .andImm (drField ir) (baseField ir) (imm5Field ir)
    else .andReg (drField ir) (baseField ir) (ir.extractLsb' 3 2) (sr2Field ir)
  else if opcodeField ir = 0x6#4 then .ldr (drField ir) (baseField ir) (offset6Field ir)
  else if opcodeField ir = 0x7#4 then .str (drField ir) (baseField ir) (offset6Field ir)
  else if opcodeField ir = 0x8#4 then .rti (low12Field ir)
  else if opcodeField ir = 0x9#4 then .not (drField ir) (baseField ir) (offset6Field ir)
  else if opcodeField ir = 0xA#4 then .ldi (drField ir) (offset9Field ir)
  else if opcodeField ir = 0xB#4 then .sti (drField ir) (offset9Field ir)
  else if opcodeField ir = 0xC#4 then .jmp (drField ir) (baseField ir) (offset6Field ir)
  else if opcodeField ir = 0xD#4 then .reserved (low12Field ir)
  else if opcodeField ir = 0xE#4 then .lea (drField ir) (offset9Field ir)
  else .trap (ir.extractLsb' 8 4) (vectorField ir)

/-- Why a list of words gives no instruction. "Decoding never fails" on a word (R94): only a missing word is refused. -/
inductive DecodeError where
  /-- The list holds no word to decode. Safe. -/
  | noWord
deriving DecidableEq, Repr

/-- The first instruction of a list of words, and the rest: every instruction is one word (R80). -/
def decodeWords : List Word → Except DecodeError (Instr × List Word)
  | [] => .error .noWord
  | ir :: rest => .ok (decode ir, rest)

/-- The words of `nbits` bits numbered from bit 0 of the first word; bits at and above `nbits` are 0. -/
def tableWords (nbits w : Nat) : List Word :=
  (List.range ((nbits + 15) / 16)).map fun k => BitVec.ofNat 16 (w % 2 ^ nbits / 2 ^ (16 * k))

/-- The instruction the decoder reads from an instruction whose bits are `w`, numbered as spec/opcode_table.json numbers them. It is
`none` unless the bits are exactly one instruction (R80: one 16-bit word). Log 23. -/
def decodeTableWord (nbits w : Nat) : Option Instr :=
  match decodeWords (tableWords nbits w) with
  | .ok (decoded, []) => some decoded
  | .ok (_, _ :: _) => none
  | .error _ => none

/-! ## The encoder -/

/-- A field whose lowest bit stands at bit `lo` of the word. -/
def place (lo : Nat) {n : Nat} (v : BitVec n) : Word := v.setWidth 16 <<< lo

/-- The word of an instruction: each field of its format table (R84-R92) at its place. -/
def encode : Instr → Word
  | .br n z p off =>
    place 12 0x0#4 ||| place 11 (BitVec.ofBool n) ||| place 10 (BitVec.ofBool z) ||| place 9 (BitVec.ofBool p) ||| place 0 off
  | .addReg dr sr1 ignored sr2 => place 12 0x1#4 ||| place 9 dr ||| place 6 sr1 ||| place 3 ignored ||| place 0 sr2
  | .addImm dr sr1 imm5 => place 12 0x1#4 ||| place 9 dr ||| place 6 sr1 ||| place 5 1#1 ||| place 0 imm5
  | .ld dr off => place 12 0x2#4 ||| place 9 dr ||| place 0 off
  | .st sr off => place 12 0x3#4 ||| place 9 sr ||| place 0 off
  | .jsr off => place 12 0x4#4 ||| place 11 1#1 ||| place 0 off
  | .jsrr ignoredHi baseR ignoredLo => place 12 0x4#4 ||| place 9 ignoredHi ||| place 6 baseR ||| place 0 ignoredLo
  | .andReg dr sr1 ignored sr2 => place 12 0x5#4 ||| place 9 dr ||| place 6 sr1 ||| place 3 ignored ||| place 0 sr2
  | .andImm dr sr1 imm5 => place 12 0x5#4 ||| place 9 dr ||| place 6 sr1 ||| place 5 1#1 ||| place 0 imm5
  | .ldr dr baseR off => place 12 0x6#4 ||| place 9 dr ||| place 6 baseR ||| place 0 off
  | .str sr baseR off => place 12 0x7#4 ||| place 9 sr ||| place 6 baseR ||| place 0 off
  | .rti ignored => place 12 0x8#4 ||| place 0 ignored
  | .not dr sr1 ignored => place 12 0x9#4 ||| place 9 dr ||| place 6 sr1 ||| place 0 ignored
  | .ldi dr off => place 12 0xA#4 ||| place 9 dr ||| place 0 off
  | .sti sr off => place 12 0xB#4 ||| place 9 sr ||| place 0 off
  | .jmp ignoredHi baseR ignoredLo => place 12 0xC#4 ||| place 9 ignoredHi ||| place 6 baseR ||| place 0 ignoredLo
  | .reserved ignored => place 12 0xD#4 ||| place 0 ignored
  | .lea dr off => place 12 0xE#4 ||| place 9 dr ||| place 0 off
  | .trap ignored vect => place 12 0xF#4 ||| place 8 ignored ||| place 0 vect

/-! ## The rows of the opcode table -/

/-- A row's mask and match, as spec/opcode_table.json gives them. -/
structure EncodingRow where
  mask : Word
  pattern : Word
deriving DecidableEq, Repr

/-- A word belongs to a row when its bits under the mask are the row's pattern. -/
def EncodingRow.matchesWord (row : EncodingRow) (ir : Word) : Bool := ir &&& row.mask == row.pattern

/-- The row of an instruction (spec/opcode_table.json, "mask" and "match"). -/
def Instr.row : Instr → EncodingRow
  | .br _ _ _ _ => ⟨0xF000#16, 0x0000#16⟩
  | .addReg _ _ _ _ => ⟨0xF020#16, 0x1000#16⟩
  | .addImm _ _ _ => ⟨0xF020#16, 0x1020#16⟩
  | .ld _ _ => ⟨0xF000#16, 0x2000#16⟩
  | .st _ _ => ⟨0xF000#16, 0x3000#16⟩
  | .jsr _ => ⟨0xF800#16, 0x4800#16⟩
  | .jsrr _ _ _ => ⟨0xF800#16, 0x4000#16⟩
  | .andReg _ _ _ _ => ⟨0xF020#16, 0x5000#16⟩
  | .andImm _ _ _ => ⟨0xF020#16, 0x5020#16⟩
  | .ldr _ _ _ => ⟨0xF000#16, 0x6000#16⟩
  | .str _ _ _ => ⟨0xF000#16, 0x7000#16⟩
  | .rti _ => ⟨0xF000#16, 0x8000#16⟩
  | .not _ _ _ => ⟨0xF000#16, 0x9000#16⟩
  | .ldi _ _ => ⟨0xF000#16, 0xA000#16⟩
  | .sti _ _ => ⟨0xF000#16, 0xB000#16⟩
  | .jmp _ _ _ => ⟨0xF000#16, 0xC000#16⟩
  | .reserved _ => ⟨0xF000#16, 0xD000#16⟩
  | .lea _ _ => ⟨0xF000#16, 0xE000#16⟩
  | .trap _ _ => ⟨0xF000#16, 0xF000#16⟩

/-- The 19 rows, in the table's order. -/
def opcodeTable : List EncodingRow :=
  [⟨0xF000#16, 0x0000#16⟩, ⟨0xF020#16, 0x1000#16⟩, ⟨0xF020#16, 0x1020#16⟩, ⟨0xF000#16, 0x2000#16⟩, ⟨0xF000#16, 0x3000#16⟩,
    ⟨0xF800#16, 0x4800#16⟩, ⟨0xF800#16, 0x4000#16⟩, ⟨0xF020#16, 0x5000#16⟩, ⟨0xF020#16, 0x5020#16⟩, ⟨0xF000#16, 0x6000#16⟩] ++
  [⟨0xF000#16, 0x7000#16⟩, ⟨0xF000#16, 0x8000#16⟩, ⟨0xF000#16, 0x9000#16⟩, ⟨0xF000#16, 0xA000#16⟩, ⟨0xF000#16, 0xB000#16⟩,
    ⟨0xF000#16, 0xC000#16⟩, ⟨0xF000#16, 0xD000#16⟩, ⟨0xF000#16, 0xE000#16⟩, ⟨0xF000#16, 0xF000#16⟩]

end Sys2Proof
end

