-- ==== Sys2Proof/Config.lean ====
section
/-! DEFINITION. What the spec leaves open for the whole machine: constants without a body, so that no proof can see their values
(00_scope.md R9). Values the spec decides stand where they are used, in Sys2Proof/Machine. -/

namespace Sys2Proof.Config

/-- `HALT_MESSAGE`, the finite byte string HALT prints. The spec leaves its text open: "A model must not assume the text"
(43_trap_system.md R192, 92_eei_decisions.md D17). Log 7. -/
opaque haltMessage : List Byte

/-- A free number, from which `exitFault` is made. Log 8. -/
opaque exitFaultDraw : Nat

/-- A free number, from which `exitStartup` is made. Log 8. -/
opaque exitStartupDraw : Nat

/-- `EXIT_FAULT`: any non-zero status (10_state.md R41, 92_eei_decisions.md D19). -/
def exitFault : Nat := exitFaultDraw + 1

/-- `EXIT_STARTUP`: any non-zero status but `EXIT_FAULT` (10_state.md R41, 92_eei_decisions.md D19). -/
def exitStartup : Nat :=
  if exitStartupDraw + 1 < exitFault then exitStartupDraw + 1 else exitStartupDraw + 2

end Sys2Proof.Config
end

