-- ==== Sys2Proof/Machine/State.lean ====
section
/-! DEFINITION. The state of the machine, why it stops, and reset.

10_state.md R38 gives the core's record (registers, pc, cond, memory, running, fault). Three fields of the model's own stand beside
it: `hold` (a GETC or IN waiting inside its step, 70_reset_and_hazards.md R247), and the two ends of the core's channels, `input` and
`output`, which R38 counts to the environment (10_state.md R36, R40). -/

namespace Sys2Proof.Machine

/-- COND: exactly one of POS, ZRO, NEG (10_state.md R26, R38). Log 13. -/
inductive Cond where
  | pos
  | zro
  | neg
deriving DecidableEq, Repr

/-- The causes of a fatal fault (60_exceptions.md R211). -/
inductive FaultCause where
  /-- RTI_OPCODE: the RTI opcode was executed. -/
  | rtiOpcode
  /-- RESERVED_OPCODE: the reserved opcode was executed. -/
  | reservedOpcode
  /-- BAD_TRAP_VECTOR: a TRAP had a vector outside 0x20 to 0x25. -/
  | badTrapVector
deriving DecidableEq, Repr

/-- What a fault records: its cause, the faulting word and that word's address (10_state.md R31, 60_exceptions.md R212). Log 21. -/
structure FaultRecord where
  cause : FaultCause
  ir : Word
  addr : Word
deriving DecidableEq, Repr

/-- The trap routine that waits for a character inside its TRAP's step (70_reset_and_hazards.md R247). Log 5. -/
inductive Hold where
  /-- TRAP GETC waits. -/
  | getc
  /-- TRAP IN waits. -/
  | inEcho
deriving DecidableEq, Repr

/-- The input agent: what it will answer to the core's requests for a character. Each answer is `none` (no character is available
now) or a character, which the request consumes. When `answers` is used up, every later answer is `thereafter`: `none` is the end of
input (92_eei_decisions.md D22), `some c` an agent that always has a character ready. Availability at each request is the agent's free
choice (D27): a statement about every state is a statement about every such schedule. Logs 3, 4. -/
structure InputAgent where
  answers : List (Option Byte)
  thereafter : Option Byte
deriving DecidableEq, Repr

/-- Memory: pairs of a word address and the word stored there, only the addresses that do not hold 0x0000, in rising order. A cell is
one 16-bit word because "each address names one whole 16-bit word. There are no byte addresses" (20_memory.md R50). Logs 1, 2. -/
abbrev Memory := List (Nat × Word)

/-- The state between two steps. -/
structure State where
  /-- R0 to R7 (10_state.md R21). -/
  regs : Vector Word 8
  /-- The program counter (10_state.md R23). -/
  pc : Word
  /-- The condition register (10_state.md R26). -/
  cond : Cond
  /-- The 65,536 words of memory, KBSR and KBDR among them (10_state.md R34, R35). -/
  mem : Memory
  /-- False after HALT (10_state.md R30). -/
  running : Bool
  /-- The fault record (10_state.md R31). -/
  fault : Option FaultRecord
  /-- The model's own: the routine that holds for input (70_reset_and_hazards.md R247). Log 5. -/
  hold : Option Hold
  /-- The model's own: the input agent (10_state.md R40). Logs 3, 4. -/
  input : InputAgent
  /-- The model's own: the bytes given to `PutChar` so far, oldest first (10_state.md R40). Log 6. -/
  output : List Byte
deriving DecidableEq, Repr

/-- The machine at its creation, before an image is loaded (10_state.md R39, 70_reset_and_hazards.md R240). The reset values of `hold`,
`input` and `output` are DESIGN CHOICE (logs 4, 5, 6). -/
def State.reset : State where
  regs := Vector.replicate 8 0x0000#16
  pc := 0x3000#16
  cond := .zro
  mem := []
  running := true
  fault := none
  hold := none
  input := { answers := [], thereafter := none }
  output := []

/-- Why a step stops. -/
inductive Fault where
  /-- The state is HALTED: `running` is false, so there is no step (70_reset_and_hazards.md R244, R246). Raised by `step`. Safe. -/
  | halted
  /-- The state is FAULTED: `fault` holds this record, so there is no step (70_reset_and_hazards.md R244, 60_exceptions.md R213).
  Raised by `step`. Safe. -/
  | faulted (record : FaultRecord)
  /-- PUTS or PUTSP reads words other than 0x0000 for ever: the hang of 93_implementation_defined.md U14, a stuck state. Raised by
  TRAP x22 and TRAP x24, only where the routine's loop has no end. Safe: the hardware goes on without end. Log 10. -/
  | routineNeverReturns
deriving DecidableEq, Repr

/-- Why a step has no meaning. -/
inductive Refusal where
  /-- The instruction of this mnemonic is not modelled. Raised by no arm of `exec`: every instruction has its meaning. Safe. -/
  | notModelled (mnemonic : String)
deriving DecidableEq, Repr

end Sys2Proof.Machine
end

