-- ==== Sys2Proof/Machine/Ops.lean ====
section
/-! DEFINITION. The named operations over registers, memory, the channels and the fault record. Every meaning is written over these. -/

namespace Sys2Proof.Machine

/-! ## Field updates -/

/-- The state with Ri holding `v`: no register is hardwired, so the write always lands (10_state.md R21). -/
def State.setReg (s : State) (r : Reg) (v : Word) : State := { s with regs := s.regs.set r.toNat v }

/-- The state with PC holding `target`: every word address is legal (10_state.md R25). -/
def State.setPc (s : State) (target : Word) : State := { s with pc := target }

/-- The state with COND holding `c`. -/
def State.setCond (s : State) (c : Cond) : State := { s with cond := c }

/-- The state with memory `m`. -/
def State.setMem (s : State) (m : Memory) : State := { s with mem := m }

/-- The state with the running flag cleared; no operation sets it (10_state.md R30). -/
def State.stopRunning (s : State) : State := { s with running := false }

/-- The state with a fault recorded; no operation clears the record (10_state.md R31). -/
def State.setFault (s : State) (f : FaultRecord) : State := { s with fault := some f }

/-- The state with the input hold `h`. -/
def State.setHold (s : State) (h : Option Hold) : State := { s with hold := h }

/-- The state with the input agent `agent`. -/
def State.setInput (s : State) (agent : InputAgent) : State := { s with input := agent }

/-- `PutChar` of each byte in order: the output channel grows at its end (10_state.md R40, 92_eei_decisions.md D24). -/
def State.putBytes (s : State) (bytes : List Byte) : State := { s with output := s.output ++ bytes }

/-! ## Registers -/

/-- `x[i]`, the word in Ri (00_scope.md R16). -/
def State.reg (s : State) (r : Reg) : Word := s.regs[r.toNat]'r.isLt

/-- `x[7] <- pc`, the link write of JSR, JSRR and TRAP; it leaves COND alone (10_state.md R27, 92_eei_decisions.md D11). -/
def State.link (s : State) : State := s.setReg 7#3 s.pc

/-! ## Memory -/

/-- What an unlisted address reads as: 0x0000 (10_state.md R39, 92_eei_decisions.md D20). Log 2. -/
def Memory.unlisted : Word := 0x0000#16

/-- The word at a key. -/
def Memory.lookup : Memory → Nat → Word
  | [], _ => Memory.unlisted
  | (b, w) :: rest, a => if b = a then w else Memory.lookup rest a

/-- The cells of every other key. -/
def Memory.erase : Memory → Nat → Memory
  | [], _ => []
  | (b, w) :: rest, a => if b = a then Memory.erase rest a else (b, w) :: Memory.erase rest a

/-- A cell put before the first greater key. -/
def Memory.insert : Memory → Nat → Word → Memory
  | [], a, v => [(a, v)]
  | (b, w) :: rest, a, v => if a < b then (a, v) :: (b, w) :: rest else (b, w) :: Memory.insert rest a v

/-- `M[a]`, the stored word, without side effect (00_scope.md R17). -/
def Memory.read (m : Memory) (a : Word) : Word := Memory.lookup m a.toNat

/-- `M[a] <- v`: the cell is listed unless `v` is what an unlisted address reads as. -/
def Memory.write (m : Memory) (a v : Word) : Memory :=
  if v = Memory.unlisted then Memory.erase m a.toNat else Memory.insert (Memory.erase m a.toNat) a.toNat v

/-- The canonical form: addresses strictly rising, inside the 65,536 words, and no cell that reads as an unlisted one. -/
abbrev Memory.wf (m : Memory) : Prop :=
  m.Pairwise (fun c d => c.1 < d.1) ∧ ∀ c ∈ m, c.1 < 0x10000 ∧ c.2 ≠ Memory.unlisted

/-! ## Characters and the input channel -/

/-- `zext_8`: a character code in a word, bits 15:8 zero (43_trap_system.md R185, 92_eei_decisions.md D13). -/
def charWord (c : Byte) : Word := c.setWidth 16

/-- `w[7:0]` (43_trap_system.md R185). -/
def lowByte (w : Word) : Byte := w.extractLsb' 0 8

/-- `w[15:8]` (43_trap_system.md R190). -/
def highByte (w : Word) : Byte := w.extractLsb' 8 8

/-- The agent's next answer, and the agent after it: a character is given once (10_state.md R36, 92_eei_decisions.md D5). -/
def InputAgent.draw : InputAgent → Option Byte × InputAgent
  | ⟨[], thereafter⟩ => (thereafter, ⟨[], thereafter⟩)
  | ⟨answer :: rest, thereafter⟩ => (answer, ⟨rest, thereafter⟩)

/-- `Poll()`: ask the input agent without blocking (10_state.md R40). -/
def State.poll (s : State) : Option Byte × State := (s.input.draw.1, s.setInput s.input.draw.2)

/-! ## The Memory Unit -/

/-- The address of the keyboard status register (10_state.md R35, 92_eei_decisions.md D3). Log 14. -/
def kbsr : Word := 0xFE00#16

/-- The address of the keyboard data register (10_state.md R35, 92_eei_decisions.md D3). Log 14. -/
def kbdr : Word := 0xFE02#16

/-- `MemWrite(a, 1, v)`: at every address, the mapped ones too, and no other effect (20_memory.md R58). -/
def State.memWrite (s : State) (a v : Word) : State := s.setMem (s.mem.write a v)

/-- The poll of a KBSR read and the keyboard registers it rewrites (20_memory.md R56). -/
def State.pollKeyboard (s : State) : State :=
  match s.poll with
  | (some c, s1) => (s1.memWrite kbsr 0x8000#16).memWrite kbdr (charWord c)
  | (none, s1) => s1.memWrite kbsr 0x0000#16

/-- `MemRead(a, 1)`: the word read and the state after. Only KBSR is special, whatever caused the read (20_memory.md R55-R57). -/
def State.memRead (s : State) (a : Word) : Word × State :=
  if a = kbsr then (s.pollKeyboard.mem.read kbsr, s.pollKeyboard) else (s.mem.read a, s)

/-! ## Faults -/

/-- The numeric code of a cause (60_exceptions.md R211). -/
def FaultCause.code : FaultCause → Nat
  | .rtiOpcode => 1
  | .reservedOpcode => 2
  | .badTrapVector => 3

/-- `raise Fault(cause, (ir, pc - 1))`: taking a fatal fault. It records the cause, the word and its address; PC stays incremented,
`running` stays true, and the writes made before it stay (00_scope.md R18, 60_exceptions.md R212, R213). There is no handler to enter
and nothing to return from (60_exceptions.md R218, R219): the loop stops because `fault` is not none. Logs 9, 21. -/
def State.raise (s : State) (cause : FaultCause) (ir : Word) : State :=
  s.setFault { cause := cause, ir := ir, addr := s.pc - 1#16 }

end Sys2Proof.Machine
end

