-- ==== Sys2Proof/Machine/Operands.lean ====
section
/-! DEFINITION. The operand forms: sign extension and the addressing modes (00_scope.md R14, 30_encoding.md R93,
42_load_store.md R150). `s.pc` is the incremented PC (10_state.md R23); all sums wrap (10_state.md R25). -/

namespace Sys2Proof.Machine

/-- `sext_N(v)`: the word whose low N bits are `v` and whose other bits copy the top bit of `v` (00_scope.md R14). -/
def sext {n : Nat} (v : BitVec n) : Word := v.signExtend 16

/-- The address of the PC-relative mode, and of the pointer in the indirect mode: `pc + sext_9(PCoffset9)` (42_load_store.md R150). -/
def State.pcRel9 (s : State) (off : BitVec 9) : Word := s.pc + sext off

/-- JSR's target: `pc + sext_11(PCoffset11)` (41_control.md R132). -/
def State.pcRel11 (s : State) (off : BitVec 11) : Word := s.pc + sext off

/-- The address of the base+offset mode: `x[BaseR] + sext_6(offset6)` (42_load_store.md R150). -/
def State.baseOffset (s : State) (baseR : Reg) (off : BitVec 6) : Word := s.reg baseR + sext off

end Sys2Proof.Machine
end

