-- ==== Sys2Proof/Machine/Flags.lean ====
section
/-! DEFINITION. The condition register: its encoding, what sets it, and what BR asks of it (00_scope.md R15, 10_state.md R26-R28). -/

namespace Sys2Proof.Machine

/-- The one-hot encoding of COND (10_state.md R26, 92_eei_decisions.md D10). Log 13. -/
def Cond.bits : Cond → BitVec 3
  | .pos => 0b001#3
  | .zro => 0b010#3
  | .neg => 0b100#3

/-- `classify(w)` (00_scope.md R15). -/
def classify (w : Word) : Cond :=
  if w = 0x0000#16 then .zro else if w.msb then .neg else .pos

/-- `setcc(w)` (00_scope.md R15). -/
def State.setcc (s : State) (w : Word) : State := s.setCond (classify w)

/-- `x[DR] <- v; setcc(v)`: the result write of every instruction that sets COND (10_state.md R27). -/
def State.writeResult (s : State) (dr : Reg) (v : Word) : State := (s.setReg dr v).setcc v

/-- BR's test, `(ir[11:9] & COND) != 0` (41_control.md R130). -/
def branchTaken (n z p : Bool) (c : Cond) : Bool :=
  (BitVec.ofBool n ++ BitVec.ofBool z ++ BitVec.ofBool p) &&& c.bits != 0#3

end Sys2Proof.Machine
end

