-- ==== Sys2Proof/Machine/Control.lean ====
section
/-! DEFINITION. Control transfer: BR, JMP (RET), JSR, JSRR (41_control.md). No delay slot, no alignment (R134). -/

namespace Sys2Proof.Machine

/-- BR (41_control.md R130). -/
def execBr (n z p : Bool) (off : BitVec 9) (s : State) : Host.Outcome State Fault Refusal :=
  .next (if branchTaken n z p s.cond then s.setPc (s.pcRel9 off) else s)

/-- JMP, and RET as JMP R7 (41_control.md R131). -/
def execJmp (_ignoredHi : BitVec 3) (baseR : Reg) (_ignoredLo : BitVec 6) (s : State) : Host.Outcome State Fault Refusal :=
  .next (s.setPc (s.reg baseR))

/-- JSR (41_control.md R132): the link write leaves COND alone. -/
def execJsr (off : BitVec 11) (s : State) : Host.Outcome State Fault Refusal :=
  .next (s.link.setPc (s.pcRel11 off))

/-- JSRR (41_control.md R133): BaseR is read after R7 is written (90_conflicts.md C5). Log 20. -/
def execJsrr (_ignoredHi : BitVec 2) (baseR : Reg) (_ignoredLo : BitVec 6) (s : State) : Host.Outcome State Fault Refusal :=
  .next (s.link.setPc (s.link.reg baseR))

end Sys2Proof.Machine
end

