-- ==== Sys2Proof/Machine/LoadStore.lean ====
section
/-! DEFINITION. Loads, stores and LEA (42_load_store.md). Every read goes through `memRead`, so a read of KBSR polls (R57). -/

namespace Sys2Proof.Machine

/-- The end of a load: what was read goes to DR of the state after the read, and sets COND (42_load_store.md R151-R153). -/
def State.loadResult (dr : Reg) (read : Word × State) : State := read.2.writeResult dr read.1

/-- LD (42_load_store.md R151). -/
def execLd (dr : Reg) (off : BitVec 9) (s : State) : Host.Outcome State Fault Refusal :=
  .next (State.loadResult dr (s.memRead (s.pcRel9 off)))

/-- The pointer read of the indirect mode (42_load_store.md R150). -/
def State.readPointer (s : State) (off : BitVec 9) : Word × State := s.memRead (s.pcRel9 off)

/-- LDI: the pointer, then the value, both through the Memory Unit (42_load_store.md R152). -/
def execLdi (dr : Reg) (off : BitVec 9) (s : State) : Host.Outcome State Fault Refusal :=
  .next (State.loadResult dr ((s.readPointer off).2.memRead (s.readPointer off).1))

/-- LDR: the base is read before DR is written (42_load_store.md R153). -/
def execLdr (dr baseR : Reg) (off : BitVec 6) (s : State) : Host.Outcome State Fault Refusal :=
  .next (State.loadResult dr (s.memRead (s.baseOffset baseR off)))

/-- LEA: no memory access; it sets COND (42_load_store.md R154, 90_conflicts.md C4). Log 20. -/
def execLea (dr : Reg) (off : BitVec 9) (s : State) : Host.Outcome State Fault Refusal :=
  .next (s.writeResult dr (s.pcRel9 off))

/-- ST (42_load_store.md R155). -/
def execSt (sr : Reg) (off : BitVec 9) (s : State) : Host.Outcome State Fault Refusal :=
  .next (s.memWrite (s.pcRel9 off) (s.reg sr))

/-- STI: the pointer read may poll, the store does not (42_load_store.md R156). -/
def execSti (sr : Reg) (off : BitVec 9) (s : State) : Host.Outcome State Fault Refusal :=
  .next ((s.readPointer off).2.memWrite (s.readPointer off).1 ((s.readPointer off).2.reg sr))

/-- STR (42_load_store.md R157). -/
def execStr (sr baseR : Reg) (off : BitVec 6) (s : State) : Host.Outcome State Fault Refusal :=
  .next (s.memWrite (s.baseOffset baseR off) (s.reg sr))

end Sys2Proof.Machine
end

