-- ==== Sys2Proof/Machine/Operate.lean ====
section
/-! DEFINITION. The operate instructions: ADD, AND, NOT (40_operate.md). -/

namespace Sys2Proof.Machine

/-- ADD, register mode (40_operate.md R110). Both sources are read before the write. -/
def execAddReg (dr sr1 : Reg) (_ignored : BitVec 2) (sr2 : Reg) (s : State) : Host.Outcome State Fault Refusal :=
  .next (s.writeResult dr (s.reg sr1 + s.reg sr2))

/-- ADD, immediate mode (40_operate.md R111). -/
def execAddImm (dr sr1 : Reg) (imm5 : BitVec 5) (s : State) : Host.Outcome State Fault Refusal :=
  .next (s.writeResult dr (s.reg sr1 + sext imm5))

/-- AND, register mode (40_operate.md R112). -/
def execAndReg (dr sr1 : Reg) (_ignored : BitVec 2) (sr2 : Reg) (s : State) : Host.Outcome State Fault Refusal :=
  .next (s.writeResult dr (s.reg sr1 &&& s.reg sr2))

/-- AND, immediate mode: imm5 is sign-extended here too (40_operate.md R113). -/
def execAndImm (dr sr1 : Reg) (imm5 : BitVec 5) (s : State) : Host.Outcome State Fault Refusal :=
  .next (s.writeResult dr (s.reg sr1 &&& sext imm5))

/-- NOT (40_operate.md R114). -/
def execNot (dr sr1 : Reg) (_ignored : BitVec 6) (s : State) : Host.Outcome State Fault Refusal :=
  .next (s.writeResult dr (~~~ s.reg sr1))

end Sys2Proof.Machine
end

