-- ==== Sys2Proof/Machine/Trap.lean ====
section
/-! DEFINITION. TRAP with its six built-in routines, RTI and the reserved opcode (43_trap_system.md). -/

namespace Sys2Proof.Machine

/-! ## The Trap Dispatcher -/

/-- The built-in routines (43_trap_system.md R181). -/
inductive Routine where
  | getc
  | out
  | puts
  | inEcho
  | putsp
  | halt
deriving DecidableEq, Repr

/-- The routine of a vector; `none` for an unknown one (43_trap_system.md R180, R181, 92_eei_decisions.md D6). Log 16. -/
def routineOf (trapvect8 : BitVec 8) : Option Routine :=
  if trapvect8 = 0x20#8 then some .getc
  else if trapvect8 = 0x21#8 then some .out
  else if trapvect8 = 0x22#8 then some .puts
  else if trapvect8 = 0x23#8 then some .inEcho
  else if trapvect8 = 0x24#8 then some .putsp
  else if trapvect8 = 0x25#8 then some .halt
  else none

/-! ## Routines that wait for a character -/

/-- `IN_PROMPT`, decided empty (43_trap_system.md R189, 92_eei_decisions.md D16). Log 19. -/
def inPrompt : List Byte := []

/-- What GETC and IN do with their character: IN echoes it; it goes to R0 and sets COND (43_trap_system.md R186, R189,
92_eei_decisions.md D12). Log 17. -/
def State.deliver (s : State) (h : Hold) (c : Byte) : State :=
  match h with
  | .getc => s.writeResult 0#3 (charWord c)
  | .inEcho => (s.putBytes [c]).writeResult 0#3 (charWord c)

/-- `GetChar()` and what follows it: one request to the input agent. A character ends the hold and the routine; without one the core
is held inside the TRAP (70_reset_and_hazards.md R247). Log 5. -/
def State.awaitChar (s : State) (h : Hold) : State :=
  match s.poll with
  | (some c, s1) => (s1.deliver h c).setHold none
  | (none, s1) => s1.setHold (some h)

/-- GETC (43_trap_system.md R186). -/
def State.getc (s : State) : State := s.awaitChar .getc

/-- IN: the prompt, then the character (43_trap_system.md R189). -/
def State.inEcho (s : State) : State := (s.putBytes inPrompt).awaitChar .inEcho

/-! ## Routines that write -/

/-- OUT (43_trap_system.md R187). -/
def State.out (s : State) : State := s.putBytes [lowByte (s.reg 0#3)]

/-- The bytes PUTS gives out for a word: its low byte (43_trap_system.md R188, 92_eei_decisions.md D14). Log 18. -/
def putsBytes (w : Word) : List Byte := [lowByte w]

/-- The bytes PUTSP gives out for a word: the low byte, then the high byte unless it is 0 (43_trap_system.md R190,
92_eei_decisions.md D15). Log 18. -/
def putspBytes (w : Word) : List Byte := if highByte w = 0#8 then [lowByte w] else [lowByte w, highByte w]

/-- The loop of PUTS and PUTSP from address `a`, at most `fuel` reads: `none` if they meet no 0x0000 word. Every read goes through the
Memory Unit, the address wraps (43_trap_system.md R188, R190, R193). -/
def State.stringLoop (bytes : Word → List Byte) : Nat → Word → State → Option State
  | 0, _, _ => none
  | fuel + 1, a, s =>
    if (s.memRead a).1 = 0x0000#16 then some (s.memRead a).2
    else State.stringLoop bytes fuel (a + 1#16) ((s.memRead a).2.putBytes (bytes (s.memRead a).1))

/-- Enough reads to meet a 0x0000 word if the loop ever does: a lap of memory for each answer the input agent has left, and two more
(Sys2Proof/Laws/Strings.lean, `stringLoop_of_run`). Log 10. -/
def State.stringFuel (s : State) : Nat := 0x10000 * (s.input.answers.length + 2)

/-- PUTS; `none` if it never returns (43_trap_system.md R188). -/
def State.puts (s : State) : Option State := State.stringLoop putsBytes s.stringFuel (s.reg 0#3) s

/-- PUTSP; `none` if it never returns (43_trap_system.md R190). -/
def State.putsp (s : State) : Option State := State.stringLoop putspBytes s.stringFuel (s.reg 0#3) s

/-- HALT: the shutdown message, then the running flag is cleared (43_trap_system.md R191). -/
def State.halt (s : State) : State := (s.putBytes Config.haltMessage).stopRunning

/-- A string routine that returns goes on at `pc`; one that does not is stuck (93_implementation_defined.md U14). Log 10. -/
def outcomeOfString : Option State → Host.Outcome State Fault Refusal
  | some s => .next s
  | none => .fault .routineNeverReturns

/-! ## The instructions -/

/-- TRAP: R7 first, then the routine; an unknown vector faults after the R7 write (43_trap_system.md R180-R183). -/
def execTrap (ignored : BitVec 4) (trapvect8 : BitVec 8) (s : State) : Host.Outcome State Fault Refusal :=
  match routineOf trapvect8 with
  | some .getc => .next s.link.getc
  | some .out => .next s.link.out
  | some .puts => outcomeOfString s.link.puts
  | some .inEcho => .next s.link.inEcho
  | some .putsp => outcomeOfString s.link.putsp
  | some .halt => .next s.link.halt
  | none => .next (s.link.raise .badTrapVector (encode (.trap ignored trapvect8)))

/-- RTI: a fatal fault, and nothing else changes (43_trap_system.md R196). -/
def execRti (ignored : BitVec 12) (s : State) : Host.Outcome State Fault Refusal :=
  .next (s.raise .rtiOpcode (encode (.rti ignored)))

/-- The reserved opcode: a fatal fault, and nothing else changes (43_trap_system.md R197). -/
def execReserved (ignored : BitVec 12) (s : State) : Host.Outcome State Fault Refusal :=
  .next (s.raise .reservedOpcode (encode (.reserved ignored)))

end Sys2Proof.Machine
end

