-- ==== Sys2Proof/Machine/Dispatch.lean ====
section
/-! DEFINITION. The dispatch of an instruction to its meaning, one arm per constructor (70_reset_and_hazards.md R243). -/

namespace Sys2Proof.Machine

/-- What an instruction does to a state whose PC is already incremented (10_state.md R23). -/
def exec (i : Instr) (s : State) : Host.Outcome State Fault Refusal :=
  match i with
  | .br n z p off => Sys2Proof.Machine.execBr n z p off s
  | .addReg dr sr1 ignored sr2 => Sys2Proof.Machine.execAddReg dr sr1 ignored sr2 s
  | .addImm dr sr1 imm5 => Sys2Proof.Machine.execAddImm dr sr1 imm5 s
  | .ld dr off => Sys2Proof.Machine.execLd dr off s
  | .st sr off => Sys2Proof.Machine.execSt sr off s
  | .jsr off => Sys2Proof.Machine.execJsr off s
  | .jsrr ignoredHi baseR ignoredLo => Sys2Proof.Machine.execJsrr ignoredHi baseR ignoredLo s
  | .andReg dr sr1 ignored sr2 => Sys2Proof.Machine.execAndReg dr sr1 ignored sr2 s
  | .andImm dr sr1 imm5 => Sys2Proof.Machine.execAndImm dr sr1 imm5 s
  | .ldr dr baseR off => Sys2Proof.Machine.execLdr dr baseR off s
  | .str sr baseR off => Sys2Proof.Machine.execStr sr baseR off s
  | .rti ignored => Sys2Proof.Machine.execRti ignored s
  | .not dr sr1 ignored => Sys2Proof.Machine.execNot dr sr1 ignored s
  | .ldi dr off => Sys2Proof.Machine.execLdi dr off s
  | .sti sr off => Sys2Proof.Machine.execSti sr off s
  | .jmp ignoredHi baseR ignoredLo => Sys2Proof.Machine.execJmp ignoredHi baseR ignoredLo s
  | .reserved ignored => Sys2Proof.Machine.execReserved ignored s
  | .lea dr off => Sys2Proof.Machine.execLea dr off s
  | .trap ignored trapvect8 => Sys2Proof.Machine.execTrap ignored trapvect8 s

end Sys2Proof.Machine
end

