-- ==== Sys2Proof/Machine/Loop.lean ====
section
/-! DEFINITION. The parts of the execution loop and the boot: what a step finds, the fetch, the exit status, the image load
(70_reset_and_hazards.md R240-R247, 10_state.md R40, R41). Sys2Proof/Machine/Step.lean only puts them together. -/

namespace Sys2Proof.Machine

/-! ## The loop -/

/-- What a step finds between two steps. -/
inductive Phase where
  /-- A final state: no step (70_reset_and_hazards.md R244, R246). -/
  | final (why : Fault)
  /-- GETC or IN holds for input (70_reset_and_hazards.md R247). -/
  | waiting (h : Hold)
  /-- The next instruction is fetched. -/
  | fetching
deriving DecidableEq, Repr

/-- FAULTED and HALTED first (70_reset_and_hazards.md R246), then a hold, then the fetch. Log 26. -/
def State.phase (s : State) : Phase :=
  match s.fault, s.running, s.hold with
  | some record, _, _ => .final (.faulted record)
  | none, false, _ => .final .halted
  | none, true, some h => .waiting h
  | none, true, none => .fetching

/-- `ir <- MemRead(pc, 1); pc <- pc + 1`: a fetch from KBSR polls (70_reset_and_hazards.md R244, 20_memory.md R57). -/
def State.fetch (s : State) : Word × State := ((s.memRead s.pc).1, (s.memRead s.pc).2.setPc (s.pc + 1#16))

/-- `exit_code`: 0 after HALT, `EXIT_FAULT` after a fatal fault, none while the run goes on (10_state.md R41). -/
def State.exitCode (s : State) : Option Nat :=
  match s.fault, s.running with
  | some _, _ => some Config.exitFault
  | none, false => some 0
  | none, true => none

/-! ## Boot -/

/-- A program image: an origin and the words to place from there (10_state.md R40). -/
structure Image where
  origin : Word
  words : List Word
deriving DecidableEq, Repr

/-- Words placed one by one, addresses wrapping, a later word over an earlier one (10_state.md R40, 92_eei_decisions.md D21). Log 24. -/
def State.loadWords (s : State) : Word → List Word → State
  | _, [] => s
  | a, w :: rest => (s.memWrite a w).loadWords (a + 1#16) rest

/-- `load(origin, words)` (10_state.md R40). -/
def State.load (s : State) (image : Image) : State := s.loadWords image.origin image.words

/-- How the boot ends. -/
inductive BootOutcome where
  /-- The loop starts in this state. -/
  | started (s : State)
  /-- The loader gave no image: the core executes nothing and reports this status (60_exceptions.md R214). -/
  | startupFault (exitCode : Nat)
deriving DecidableEq, Repr

/-- The boot: create the Machine State, load the image, start at 0x3000 (70_reset_and_hazards.md R241). `image` is `none` where the
loader fails; `agent` is the input agent the environment attaches. Log 24. -/
def boot (image : Option Image) (agent : InputAgent) : BootOutcome :=
  match image with
  | some img => .started ((State.reset.load img).setInput agent)
  | none => .startupFault Config.exitStartup

/-! ## A word where the next instruction is fetched -/

/-- The one word of an instruction of `nbits` bits: bits at and above `nbits` are 0 (30_encoding.md R80). -/
def fetchWord (nbits w : Nat) : Word := BitVec.ofNat 16 (w % 2 ^ nbits)

/-- The state with that word in memory at PC. Log 23. -/
def State.placeAtPc (s : State) (nbits w : Nat) : State := s.memWrite s.pc (fetchWord nbits w)

end Sys2Proof.Machine
end

