-- ==== Sys2Proof/Machine/Step.lean ====
section
/-! DEFINITION. One step of the core (70_reset_and_hazards.md R244, R247). -/

namespace Sys2Proof.Machine

/-- A final state has no step. A held GETC or IN asks the input agent again. Otherwise the word at PC is fetched, PC is incremented and
the decoded instruction is executed. -/
def step (s : State) : Host.Outcome State Fault Refusal :=
  match s.phase with
  | .final why => .fault why
  | .waiting h => .next (s.awaitChar h)
  | .fetching => exec (decode s.fetch.1) s.fetch.2

/-- `s` with the instruction of `nbits` bits `w` stored where `step` fetches next: at PC. From `State.reset` that is 0x3000. A word
cannot be placed for a fetch at KBSR, whose read rewrites it (20_memory.md R56). Log 23. -/
def State.withFetchWord (s : State) (nbits w : Nat) : State := s.placeAtPc nbits w

end Sys2Proof.Machine
end

