-- ==== Sys2Proof/Safety.lean ====
section
/-! DEFINITION. Final states, runs, safe runs, and the invariant of the machine (70_reset_and_hazards.md R246, 60_exceptions.md R213). -/

namespace Sys2Proof.Machine

/-- HALTED: `running` is false and no fault is recorded (70_reset_and_hazards.md R246). -/
abbrev State.Halted (s : State) : Prop := s.running = false ∧ s.fault = none

/-- FAULTED: a fault is recorded (70_reset_and_hazards.md R246). -/
abbrev State.Faulted (s : State) : Prop := s.fault.isSome = true

/-- A final state has no step (70_reset_and_hazards.md R244, R246). -/
abbrev State.Final (s : State) : Prop := s.Halted ∨ s.Faulted

/-- `t` comes from `s` by some number of steps. -/
inductive Reaches : State → State → Prop where
  | refl (s : State) : Reaches s s
  | tail {s t u : State} : Reaches s t → step t = .next u → Reaches s u

/-- The loop of PUTS and PUTSP as 43_trap_system.md R188 and R190 write it, without a bound: from address `a` and state `s` it returns
in state `t`. Where no `t` is reached, the routine never returns. -/
inductive StringRun (bytes : Word → List Byte) : Word → State → State → Prop where
  /-- `if w == 0x0000 then return`. -/
  | stop {a : Word} {s : State} : (s.memRead a).1 = 0x0000#16 → StringRun bytes a s (s.memRead a).2
  /-- `PutChar` of the word's bytes, then `a <- a + 1`. -/
  | emit {a : Word} {s t : State} : (s.memRead a).1 ≠ 0x0000#16 →
      StringRun bytes (a + 1#16) ((s.memRead a).2.putBytes (bytes (s.memRead a).1)) t → StringRun bytes a s t

/-- A safe run: it never meets a fatal fault and never sticks in a string routine. It may halt, hold for input, or go on for ever. -/
def SafeFrom (s : State) : Prop :=
  ∀ t, Reaches s t → ¬ t.Faulted ∧ step t ≠ .fault .routineNeverReturns

/-- The cause with which an instruction faults, if it is one of the three classes of 30_encoding.md R96 (60_exceptions.md R211). -/
def causeOf : Instr → Option FaultCause
  | .rti _ => some .rtiOpcode
  | .reserved _ => some .reservedOpcode
  | .trap _ trapvect8 => if knownVector trapvect8 then none else some .badTrapVector
  | .br _ _ _ _ | .addReg _ _ _ _ | .addImm _ _ _ | .ld _ _ | .st _ _ | .jsr _ | .jsrr _ _ _
  | .andReg _ _ _ _ | .andImm _ _ _ | .ldr _ _ _ | .str _ _ _ | .not _ _ _ | .ldi _ _ | .sti _ _
  | .jmp _ _ _ | .lea _ _ => none

/-- What every step keeps. Memory is canonical; a fault record tells the truth about the word that faulted and where it stood
(60_exceptions.md R211-R213); only HALT stops without a fault, and it leaves R7 = PC (43_trap_system.md R191); a hold belongs to a TRAP
whose link is written (70_reset_and_hazards.md R247). -/
structure State.Inv (s : State) : Prop where
  memCanonical : s.mem.wf
  faultRunning : s.Faulted → s.running = true
  faultPc : ∀ f, s.fault = some f → s.pc = f.addr + 1#16
  faultCause : ∀ f, s.fault = some f → causeOf (decode f.ir) = some f.cause
  faultLink : ∀ f, s.fault = some f → f.cause = .badTrapVector → s.reg 7#3 = s.pc
  haltLink : s.running = false → s.reg 7#3 = s.pc
  holdLive : s.hold.isSome = true → s.running = true ∧ s.fault = none ∧ s.reg 7#3 = s.pc

end Sys2Proof.Machine
end

