-- ==== Sys2Proof/Certificates/Slice0/Obligations.lean ====
section
/-! DEFINITION. The statements for the provers. Each docstring names the rule of spec/ it formalises.

A statement about an instruction is made over its WORD: "for every word with these opcode and mode bits, the decoded instruction, at
every state, answers …". `s.pc` is the incremented PC (10_state.md R23).

Where a numbered rule itself rests on a decision of the spec (92_eei_decisions.md), the docstring names it. In every statement over words
the opcode numbers, the field positions and the ignored bits are decisions D2, D8 and D9 (logs 11, 12); the trap vectors are D6 (log 16),
the addresses 0xFE00 and 0xFE02 are D3 (log 14). -/

open Sys2Proof Sys2Proof.Machine

namespace Sys2Proof.Spec

/-! ## Words the statements use -/

/-- Every register outside the list holds what it held. -/
def KeepsRegsBut (written : List Reg) (s t : State) : Prop := ∀ r, r ∉ written → t.reg r = s.reg r

/-- Every word of memory reads as before. -/
def KeepsMemory (s t : State) : Prop := ∀ a, t.mem.read a = s.mem.read a

/-- Every word of memory but the one at `target` reads as before. -/
def KeepsMemoryBut (target : Word) (s t : State) : Prop := ∀ a, a ≠ target → t.mem.read a = s.mem.read a

/-- The termination state and the hold are as before. -/
def KeepsControl (s t : State) : Prop := t.running = s.running ∧ t.fault = s.fault ∧ t.hold = s.hold

/-- Neither channel has moved. -/
def KeepsChannels (s t : State) : Prop := t.input = s.input ∧ t.output = s.output

/-- From `s` to `t` only DR and COND have changed: DR holds `v` and COND is its class. -/
def OnlyResult (dr : Reg) (v : Word) (s t : State) : Prop :=
  t.reg dr = v ∧ t.cond = classify v ∧ KeepsRegsBut [dr] s t ∧ t.pc = s.pc ∧ KeepsMemory s t ∧ KeepsControl s t ∧ KeepsChannels s t

/-- What a load leaves: DR holds the word `read` gives and COND is its class; memory and the input agent are as that read left them, and
that is as before where no read was of KBSR (`plain`); nothing else has changed. -/
def LoadResult (dr : Reg) (read : Word × State) (plain : Prop) (s t : State) : Prop :=
  t.reg dr = read.1 ∧ t.cond = classify read.1 ∧ KeepsRegsBut [dr] s t ∧ t.pc = s.pc ∧ KeepsMemory read.2 t ∧
    t.input = read.2.input ∧ (plain → KeepsMemory s t ∧ t.input = s.input) ∧ t.output = s.output ∧ KeepsControl s t

/-- What TRAP leaves whatever its routine does: R7 holds the return address and PC is where it was. -/
def Linked (s t : State) : Prop := t.reg 7 = s.pc ∧ t.pc = s.pc

/-- The effects of one store: `target` holds `v`, every other word, register and field is as before. -/
def OnlyStore (target v : Word) (s t : State) : Prop :=
  t.mem.read target = v ∧ KeepsMemoryBut target s t ∧ KeepsRegsBut [] s t ∧ t.pc = s.pc ∧ t.cond = s.cond ∧ KeepsControl s t ∧
    KeepsChannels s t

/-! ## Tables of the prose -/

/-- BR's condition (41_control.md R130). -/
def taken (n z p : Bool) (c : Cond) : Prop := (n = true ∧ c = .neg) ∨ (z = true ∧ c = .zro) ∨ (p = true ∧ c = .pos)

/-- PC after an instruction: the table of 10_state.md R24. -/
def PcAfter (i : Instr) (s : State) (pc : Word) : Prop :=
  match i with
  | .br n z p off => (taken n z p s.cond → pc = s.pc + off.signExtend 16) ∧ (¬ taken n z p s.cond → pc = s.pc)
  | .jmp _ baseR _ => pc = s.reg baseR
  | .jsr off => pc = s.pc + off.signExtend 16
  | .jsrr _ baseR _ => pc = if baseR = 7 then s.pc else s.reg baseR
  | .addReg _ _ _ _ | .addImm _ _ _ | .andReg _ _ _ _ | .andImm _ _ _ | .not _ _ _ | .ld _ _ | .ldi _ _ | .ldr _ _ _
  | .lea _ _ | .st _ _ | .sti _ _ | .str _ _ _ | .trap _ _ | .rti _ | .reserved _ => pc = s.pc

/-- The registers an instruction may write: the last column of 10_state.md R22. -/
def writes : Instr → List Reg
  | .addReg dr _ _ _ | .addImm dr _ _ | .andReg dr _ _ _ | .andImm dr _ _ | .not dr _ _ => [dr]
  | .ld dr _ | .ldi dr _ | .ldr dr _ _ | .lea dr _ => [dr]
  | .jsr _ | .jsrr _ _ _ => [7]
  | .trap _ v => if v = 0x20 ∨ v = 0x23 then [7, 0] else [7]
  | .br _ _ _ _ | .jmp _ _ _ | .st _ _ | .sti _ _ | .str _ _ _ | .rti _ | .reserved _ => []

/-- The instructions that write COND (10_state.md R27). -/
def WritesCond : Instr → Prop
  | .addReg _ _ _ _ | .addImm _ _ _ | .andReg _ _ _ _ | .andImm _ _ _ | .not _ _ _ => True
  | .ld _ _ | .ldi _ _ | .ldr _ _ _ | .lea _ _ => True
  | .trap _ v => v = 0x20 ∨ v = 0x23
  | .br _ _ _ _ | .jmp _ _ _ | .jsr _ | .jsrr _ _ _ | .st _ _ | .sti _ _ | .str _ _ _ | .rti _ | .reserved _ => False

/-- The address an instruction stores to (42_load_store.md R155-R157). -/
def storesTo (i : Instr) (s : State) : Option Word :=
  match i with
  | .st _ off => some (s.pc + off.signExtend 16)
  | .str _ baseR off => some (s.reg baseR + off.signExtend 16)
  | .sti _ off => some (s.memRead (s.pc + off.signExtend 16)).1
  | .br _ _ _ _ | .addReg _ _ _ _ | .addImm _ _ _ | .ld _ _ | .jsr _ | .jsrr _ _ _ | .andReg _ _ _ _ | .andImm _ _ _
  | .ldr _ _ _ | .rti _ | .not _ _ _ | .ldi _ _ | .jmp _ _ _ | .reserved _ | .lea _ _ | .trap _ _ => none

/-- The instruction, after its fetch, reads KBSR (20_memory.md R51, R57): a load's address, either read of LDI, the pointer read of STI,
or a string of PUTS or PUTSP with no 0x0000 word before KBSR. -/
def ReadsKbsr (i : Instr) (s : State) : Prop :=
  match i with
  | .ld _ off | .sti _ off => s.pc + off.signExtend 16 = 0xFE00
  | .ldi _ off => s.pc + off.signExtend 16 = 0xFE00 ∨ s.mem.read (s.pc + off.signExtend 16) = 0xFE00
  | .ldr _ baseR off => s.reg baseR + off.signExtend 16 = 0xFE00
  | .trap _ v => (v = 0x22 ∨ v = 0x24) ∧
      ∀ k, k < (0xFE00 - s.reg 0).toNat → s.mem.read (s.reg 0 + BitVec.ofNat 16 k) ≠ 0
  | .br _ _ _ _ | .addReg _ _ _ _ | .addImm _ _ _ | .st _ _ | .jsr _ | .jsrr _ _ _ | .andReg _ _ _ _ | .andImm _ _ _
  | .str _ _ _ | .rti _ | .not _ _ _ | .jmp _ _ _ | .reserved _ | .lea _ _ => False

/-- The state after the fetch (70_reset_and_hazards.md R244). -/
def fetched (s : State) : State := { (s.memRead s.pc).2 with pc := s.pc + 1 }

/-- The step asks the input agent for a character: a held GETC or IN, a fetch at KBSR, an instruction that reads KBSR, a GETC or an IN.
Only such a step can store a character in KBDR or deliver one to R0 (20_memory.md R56, 43_trap_system.md R186, R189). -/
def AsksForInput (s : State) : Prop :=
  s.hold ≠ none ∨ s.pc = 0xFE00 ∨ ReadsKbsr (decode (s.memRead s.pc).1) (fetched s) ∨
    ∃ ignored v, decode (s.memRead s.pc).1 = .trap ignored v ∧ (v = 0x20 ∨ v = 0x23)

/-- The bits of a word that are not ignored (30_encoding.md R95). -/
def careMask (ir : Word) : Word :=
  if ir.extractLsb' 12 4 = 0x1 ∨ ir.extractLsb' 12 4 = 0x5 then (if ir[5] then 0xFFFF else 0xFFE7)
  else if ir.extractLsb' 12 4 = 0x4 then (if ir[11] then 0xFFFF else 0xF9C0)
  else if ir.extractLsb' 12 4 = 0x9 then 0xFFC0
  else if ir.extractLsb' 12 4 = 0xC then 0xF1C0
  else if ir.extractLsb' 12 4 = 0xF then 0xF0FF
  else if ir.extractLsb' 12 4 = 0x8 ∨ ir.extractLsb' 12 4 = 0xD then 0xF000
  else 0xFFFF

/-- An outcome without the word its fault record holds: the one place where ignored bits are seen (60_exceptions.md R212). -/
def withoutFaultWord : Host.Outcome State Fault Refusal → Host.Outcome State Fault Refusal
  | .next t => .next { t with fault := t.fault.map fun f => { f with ir := 0 } }
  | .fault f => .fault f
  | .refused r => .refused r

/-- An outcome with COND covered. -/
def withoutCond : Host.Outcome State Fault Refusal → Host.Outcome State Fault Refusal
  | .next t => .next { t with cond := .zro }
  | .fault f => .fault f
  | .refused r => .refused r

end Sys2Proof.Spec

open Sys2Proof.Spec

/-! ## Encoding -/

/-- Every instruction, with every operand at every value, is read back from its word: no bit of an encoding is dropped
(30_encoding.md R83-R92). -/
def Obligations.DecodeOfEncode : Prop := ∀ i : Instr, decode (encode i) = i

/-- Every word is the encoding of what it decodes to: each bit of a word is in exactly one operand or the opcode (30_encoding.md R82-R92). -/
def Obligations.EncodeOfDecode : Prop := ∀ ir : Word, encode (decode ir) = ir

/-- 30_encoding.md R94: every word belongs to exactly one row of the table, the row of its instruction; and the row is settled by the
opcode and, for opcodes 0x1 and 0x5, bit 5, and for opcode 0x4, bit 11. -/
def Obligations.EveryWordHasExactlyOneRow : Prop :=
  (∀ ir : Word, opcodeTable.filter (fun row => row.matchesWord ir) = [(decode ir).row]) ∧
  ∀ ir ir' : Word, ir.extractLsb' 12 4 = ir'.extractLsb' 12 4 →
    (ir.extractLsb' 12 4 = 0x1 ∨ ir.extractLsb' 12 4 = 0x5 → ir[5] = ir'[5]) →
    (ir.extractLsb' 12 4 = 0x4 → ir[11] = ir'[11]) → (decode ir).row = (decode ir').row

/-- 30_encoding.md R95: words that differ only in ignored bits execute identically, but for the word a fault records (R212). -/
def Obligations.IgnoredBitsDoNotMatter : Prop :=
  ∀ (ir ir' : Word) (s : State), ir &&& careMask ir = ir' &&& careMask ir →
    withoutFaultWord (exec (decode ir) s) = withoutFaultWord (exec (decode ir') s)

/-- 30_encoding.md R96: exactly three classes of encoding end execution with a fatal fault. -/
def Obligations.ThreeIllegalClassesFault : Prop :=
  ∀ (ir : Word) (s : State), s.fault = none →
    ((∃ t, exec (decode ir) s = .next t ∧ t.fault ≠ none) ↔
      ir.extractLsb' 12 4 = 0x8 ∨ ir.extractLsb' 12 4 = 0xD ∨
        (ir.extractLsb' 12 4 = 0xF ∧ ¬ (0x20 ≤ (ir.extractLsb' 0 8).toNat ∧ (ir.extractLsb' 0 8).toNat ≤ 0x25)))

/-- A few words written out from the format tables decode to the instructions they stand for (95_test_vectors.md 1 and 2). -/
def Obligations.SampleWordsDecode : Prop :=
  decode 0b0001000001100010 = .addImm 0 1 2 ∧ decode 0b0101001010000011 = .andReg 1 2 0 3 ∧
  decode 0b1001000001111111 = .not 0 1 0x3F ∧ decode 0b0000010000000010 = .br false true false 2 ∧
  decode 0b0100100000000101 = .jsr 5 ∧ decode 0b1010000000000001 = .ldi 0 1 ∧ decode 0b1100000111000000 = .jmp 0 7 0 ∧
  decode 0b1111000000100101 = .trap 0 0x25

/-! ## Words and flags -/

/-- 00_scope.md R14: `sext_N(v)` is `(0xFFFF << N) | v` where the top bit of `v` is 1, else `v`; and a character is widened with zeros. -/
def Obligations.SignExtensionFormula : Prop :=
  (∀ (n : Nat) (v : BitVec n), 1 ≤ n → n ≤ 16 →
    sext v = if v.getLsbD (n - 1) then ((0xFFFF : Word) <<< n) ||| v.setWidth 16 else v.setWidth 16) ∧
  (∀ v : Word, sext v = v) ∧ ∀ c : Byte, (charWord c).toNat = c.toNat

/-- 00_scope.md R15: `classify` is total and its three classes exclude each other: zero, bit 15 set, any other; `setcc` writes COND
from it, and nothing else. -/
def Obligations.ClassifyByZeroAndSign : Prop :=
  ∀ w : Word, (classify w = .zro ↔ w = 0) ∧ (classify w = .neg ↔ w.getLsbD 15 = true) ∧
    (classify w = .pos ↔ w ≠ 0 ∧ w.getLsbD 15 = false) ∧ ∀ s : State, s.setcc w = { s with cond := classify w }

/-! ## The Memory Unit -/

/-- 20_memory.md R55: a read of any address but KBSR gives the stored word and changes no state. -/
def Obligations.PlainReadIsPure : Prop :=
  ∀ (s : State) (a : Word), a ≠ 0xFE00 → s.memRead a = (s.mem.read a, s)

/-- 20_memory.md R56: a read of KBSR polls, rewrites the keyboard registers and gives the rewritten status word
(bits 14:0, the consumption of the character and its widening are decisions D4, D5 and D13, logs 14, 15). -/
def Obligations.KeyboardStatusReadPolls : Prop :=
  ∀ s : State,
    (∀ c, s.input.draw.1 = some c →
      (s.memRead 0xFE00).1 = 0x8000 ∧ (s.memRead 0xFE00).2.mem.read 0xFE00 = 0x8000 ∧
      (s.memRead 0xFE00).2.mem.read 0xFE02 = c.setWidth 16 ∧
      ∀ a, a ≠ 0xFE00 → a ≠ 0xFE02 → (s.memRead 0xFE00).2.mem.read a = s.mem.read a) ∧
    (s.input.draw.1 = none →
      (s.memRead 0xFE00).1 = 0x0000 ∧ (s.memRead 0xFE00).2.mem.read 0xFE00 = 0x0000 ∧
      KeepsMemoryBut 0xFE00 s (s.memRead 0xFE00).2) ∧
    (s.memRead 0xFE00).2.input = s.input.draw.2 ∧ KeepsRegsBut [] s (s.memRead 0xFE00).2 ∧
    (s.memRead 0xFE00).2.pc = s.pc ∧ (s.memRead 0xFE00).2.cond = s.cond ∧ KeepsControl s (s.memRead 0xFE00).2 ∧
    (s.memRead 0xFE00).2.output = s.output

/-- 20_memory.md R58: a write stores the word at every address, and has no other effect. -/
def Obligations.WriteStoresTheWord : Prop :=
  ∀ (s : State) (a v : Word), OnlyStore a v s (s.memWrite a v)

/-- 20_memory.md R59, which the spec marks as derived from R56 and R58: a stored KBDR word is read back; a KBSR read does
not return a stored word, but what the same poll would give
without the store; and a poll that finds a character overwrites a stored KBDR word. -/
def Obligations.StoresToKeyboardRegisters : Prop :=
  ∀ (s : State) (v : Word),
    (s.memWrite 0xFE02 v).memRead 0xFE02 = (v, s.memWrite 0xFE02 v) ∧
    (s.memWrite 0xFE00 v).mem.read 0xFE00 = v ∧
    ((s.memWrite 0xFE00 v).memRead 0xFE00).1 = (s.memRead 0xFE00).1 ∧
    ((s.memWrite 0xFE00 v).memRead 0xFE00).2.mem.read 0xFE00 = (s.memRead 0xFE00).1 ∧
    ∀ c, s.input.draw.1 = some c → ((s.memWrite 0xFE02 v).memRead 0xFE00).2.mem.read 0xFE02 = c.setWidth 16

/-! ## Reset, boot, the loop -/

/-- 10_state.md R29, and R39 for the core with no image: the values of reset. -/
def Obligations.ResetValues : Prop :=
  State.reset.cond = .zro ∧ (∀ r, State.reset.reg r = 0) ∧ State.reset.pc = 0x3000 ∧ State.reset.running = true ∧
    State.reset.fault = none ∧ ∀ a, State.reset.mem.read a = 0

/-- 10_state.md R39: after the load of any image the registers are at their reset values, each address holds the last image word
placed there, and every address the image does not cover holds 0x0000 (the placement, the zero and the empty fault record are decisions D21, D20 and
D18, logs 24, 2, 21). -/
def Obligations.BootStateFromImage : Prop :=
  ∀ (image : Image) (agent : InputAgent), ∃ s, boot (some image) agent = .started s ∧
    (∀ r, s.reg r = 0) ∧ s.pc = 0x3000 ∧ s.cond = .zro ∧ s.running = true ∧ s.fault = none ∧
    (∀ k (hk : k < image.words.length),
      (∀ j, k < j → j < image.words.length → BitVec.ofNat 16 j ≠ BitVec.ofNat 16 k) →
        s.mem.read (image.origin + BitVec.ofNat 16 k) = image.words[k]) ∧
    ∀ a, (∀ k, k < image.words.length → a ≠ image.origin + BitVec.ofNat 16 k) → s.mem.read a = 0

/-- 10_state.md R41: the exit status of each end of a run, and the limits on the open ones (D19, log 8). -/
def Obligations.ExitStatus : Prop :=
  (∀ s : State, s.Halted → s.exitCode = some 0) ∧ (∀ s : State, s.Faulted → s.exitCode = some Config.exitFault) ∧
    (∀ agent, boot none agent = .startupFault Config.exitStartup) ∧ Config.exitFault ≠ 0 ∧ Config.exitStartup ≠ 0 ∧
    Config.exitFault ≠ Config.exitStartup

/-- 70_reset_and_hazards.md R244: a final state has no step; otherwise the word at PC is read through the Memory Unit, PC is incremented
and the decoded instruction is executed; and the run's end gives the exit status. -/
def Obligations.StepRunsTheDecodedInstruction : Prop :=
  (∀ s : State, s.running = false ∨ s.fault ≠ none → ∀ t, step s ≠ .next t) ∧
  (∀ s : State, s.running = true → s.fault = none → s.hold = none →
    step s = exec (decode (s.memRead s.pc).1) { (s.memRead s.pc).2 with pc := s.pc + 1 }) ∧
  (∀ s : State, s.running = false → s.fault = none → s.exitCode = some 0) ∧
  (∀ s : State, s.fault ≠ none → s.exitCode = some Config.exitFault)

/-- 60_exceptions.md R210, 20_memory.md R53: no instruction raises any other error. A state that is not final has a next state, unless
it executes a PUTS or PUTSP that never returns (how the model shows that hang is its own choice, log 10). That a GETC or IN that waits
for a character, and every held state, has a next state is the model's choice too (log 5, one model step for each request): the spec
holds the core inside the step (70_reset_and_hazards.md R247). -/
def Obligations.OnlyFinalStatesAndHangsStop : Prop :=
  ∀ s : State, ¬ s.Final → (∃ t, step s = .next t) ∨
    (step s = .fault .routineNeverReturns ∧ ∃ ignored v, decode (s.memRead s.pc).1 = .trap ignored v ∧ (v = 0x22 ∨ v = 0x24))

/-! ## Invariants -/

/-- The invariant holds at reset (the values of `hold`, `input` and `output` there are the model's choice, logs 4 to 6). -/
def Obligations.ResetMeetsInvariant : Prop := State.reset.Inv

/-- The invariant holds where the loop starts, whatever the image and the input agent. -/
def Obligations.BootMeetsInvariant : Prop :=
  ∀ (image : Image) (agent : InputAgent) (s : State), boot (some image) agent = .started s → s.Inv

/-- Every step keeps the invariant: canonical memory, truthful fault records (60_exceptions.md R211-R213), R7 = PC after HALT
(43_trap_system.md R191) and while GETC or IN holds (70_reset_and_hazards.md R247). -/
def Obligations.StepKeepsInvariant : Prop :=
  ∀ s t : State, s.Inv → step s = .next t → t.Inv

/-! ## Rules about the whole machine -/

/-- 10_state.md R30: the running flag is cleared only by the HALT routine, and is set by nothing. -/
def Obligations.OnlyHaltClearsRunning : Prop :=
  ∀ s t : State, step s = .next t →
    (t.running = true → s.running = true) ∧
    (t.running = false → s.hold = none ∧ ∃ ignored, decode (s.memRead s.pc).1 = .trap ignored 0x25)

/-- 10_state.md R27: an instruction outside the list leaves COND unchanged. -/
def Obligations.OnlyListedInstructionsWriteCond : Prop :=
  ∀ (i : Instr) (s t : State), exec i s = .next t → ¬ WritesCond i → t.cond = s.cond

/-- 10_state.md R28: only BR reads COND. Whatever COND holds, every other instruction has the same outcome in all else. -/
def Obligations.OnlyBrReadsCond : Prop :=
  ∀ (i : Instr) (s : State) (c : Cond), (∀ n z p off, i ≠ .br n z p off) →
    withoutCond (exec i { s with cond := c }) = withoutCond (exec i s)

/-- 10_state.md R22, 43_trap_system.md R194: an instruction writes no register but those of its row. -/
def Obligations.OnlyListedRegistersAreWritten : Prop :=
  ∀ (i : Instr) (s t : State), exec i s = .next t → KeepsRegsBut (writes i) s t

/-- 10_state.md R24, which the spec marks as derived from R23 and the instruction rules: PC after each instruction. -/
def Obligations.PcAfterEachInstruction : Prop :=
  ∀ (i : Instr) (s t : State), exec i s = .next t → PcAfter i s t.pc

/-- 20_memory.md R57, R58, R60: an instruction changes no word of memory but the one it stores to and, where it reads KBSR, KBSR and
KBDR. One that does not read KBSR leaves these two as well, unless it stores there. -/
def Obligations.OnlyStoresAndPollsChangeMemory : Prop :=
  ∀ (i : Instr) (s t : State) (a : Word), exec i s = .next t → storesTo i s ≠ some a →
    (ReadsKbsr i s → a ≠ 0xFE00 ∧ a ≠ 0xFE02) → t.mem.read a = s.mem.read a

/-- 10_state.md R40, 20_memory.md R58: output only grows, and only a TRAP makes it grow: a store never produces output. -/
def Obligations.OutputOnlyGrowsByTrap : Prop :=
  ∀ (i : Instr) (s t : State), exec i s = .next t →
    s.output <+: t.output ∧ ((∀ ignored v, i ≠ .trap ignored v) → t.output = s.output)

/-- 10_state.md R36, 20_memory.md R56: the input stream only moves forward, and no character is given twice, whether a poll or a routine
took it (decision D5, log 15). A request drops the answer it gives (the last one stays for ever: it stands for all that follow). A step
drops answers from the front: at least one if it asks for a character, none if it does not, and no more than one unless a string of PUTS
or PUTSP may pass KBSR again and again. (That the stream is a list of answers in State is the model's choice, log 3; that a waiting GETC
or IN asks once a step is its choice too, log 5.) -/
def Obligations.InputStreamOnlyAdvances : Prop :=
  (∀ answer rest last, InputAgent.draw { answers := answer :: rest, thereafter := last } =
    (answer, { answers := rest, thereafter := last })) ∧
  (∀ last, InputAgent.draw { answers := [], thereafter := last } = (last, { answers := [], thereafter := last })) ∧
  ∀ s t : State, step s = .next t → ∃ n : Nat,
    t.input.answers = s.input.answers.drop n ∧ t.input.thereafter = s.input.thereafter ∧
    (AsksForInput s → 1 ≤ n) ∧ (¬ AsksForInput s → n = 0) ∧
    ((∀ ignored v, decode (s.memRead s.pc).1 = .trap ignored v → v ≠ 0x22 ∧ v ≠ 0x24) → n ≤ 1)

/-- 20_memory.md R66, 70_reset_and_hazards.md R249: a store into the word just after the store instruction, by ST, STR or STI, changes
the next instruction fetched (but at KBSR, whose read polls). -/
def Obligations.StoreIsSeenByTheNextFetch : Prop :=
  ∀ (s t : State) (sr : Reg), s.running = true → s.fault = none → s.hold = none → step s = .next t → s.pc + 1 ≠ 0xFE00 →
    (decode (s.memRead s.pc).1 = .st sr 0 → t.pc = s.pc + 1 ∧ (t.memRead t.pc).1 = s.reg sr) ∧
    (∀ baseR off, decode (s.memRead s.pc).1 = .str sr baseR off → s.reg baseR + off.signExtend 16 = s.pc + 1 →
      t.pc = s.pc + 1 ∧ (t.memRead t.pc).1 = s.reg sr) ∧
    (∀ off, decode (s.memRead s.pc).1 = .sti sr off →
      ((fetched s).memRead (s.pc + 1 + off.signExtend 16)).1 = s.pc + 1 →
      t.pc = s.pc + 1 ∧ (t.memRead t.pc).1 = s.reg sr)

/-- 41_control.md R134: JSR and JMP R7 are a round trip. Whatever ran between, if R7 is kept, JMP R7 gives back the saved PC. -/
def Obligations.JumpToR7ReturnsFromCall : Prop :=
  ∀ (s : State) (off : BitVec 11) (hi : BitVec 3) (lo : BitVec 6), ∃ t, exec (.jsr off) s = .next t ∧
    ∀ u : State, u.reg 7 = t.reg 7 → ∃ v, exec (.jmp hi 7 lo) u = .next v ∧ v.pc = s.pc

/-! ## Operate instructions -/

/-- 40_operate.md R110. -/
def Obligations.AddRegister : Prop :=
  ∀ (ir : Word) (s : State), ir.extractLsb' 12 4 = 0x1 → ir[5] = false →
    ∃ t, exec (decode ir) s = .next t ∧
      OnlyResult (ir.extractLsb' 9 3) (s.reg (ir.extractLsb' 6 3) + s.reg (ir.extractLsb' 0 3)) s t

/-- 40_operate.md R111. -/
def Obligations.AddImmediate : Prop :=
  ∀ (ir : Word) (s : State), ir.extractLsb' 12 4 = 0x1 → ir[5] = true →
    ∃ t, exec (decode ir) s = .next t ∧
      OnlyResult (ir.extractLsb' 9 3) (s.reg (ir.extractLsb' 6 3) + (ir.extractLsb' 0 5).signExtend 16) s t

/-- 40_operate.md R112. -/
def Obligations.AndRegister : Prop :=
  ∀ (ir : Word) (s : State), ir.extractLsb' 12 4 = 0x5 → ir[5] = false →
    ∃ t, exec (decode ir) s = .next t ∧
      OnlyResult (ir.extractLsb' 9 3) (s.reg (ir.extractLsb' 6 3) &&& s.reg (ir.extractLsb' 0 3)) s t

/-- 40_operate.md R113. -/
def Obligations.AndImmediate : Prop :=
  ∀ (ir : Word) (s : State), ir.extractLsb' 12 4 = 0x5 → ir[5] = true →
    ∃ t, exec (decode ir) s = .next t ∧
      OnlyResult (ir.extractLsb' 9 3) (s.reg (ir.extractLsb' 6 3) &&& (ir.extractLsb' 0 5).signExtend 16) s t

/-- 40_operate.md R114. -/
def Obligations.NotComplements : Prop :=
  ∀ (ir : Word) (s : State), ir.extractLsb' 12 4 = 0x9 →
    ∃ t, exec (decode ir) s = .next t ∧ OnlyResult (ir.extractLsb' 9 3) (~~~ s.reg (ir.extractLsb' 6 3)) s t

/-! ## Control transfer -/

/-- 41_control.md R130: taken or not, BR changes PC alone; its two tests agree. -/
def Obligations.BranchOnCondition : Prop :=
  ∀ (ir : Word) (s : State), ir.extractLsb' 12 4 = 0x0 →
    (taken ir[11] ir[10] ir[9] s.cond ↔ ir.extractLsb' 9 3 &&& s.cond.bits ≠ 0) ∧
    (taken ir[11] ir[10] ir[9] s.cond →
      exec (decode ir) s = .next { s with pc := s.pc + (ir.extractLsb' 0 9).signExtend 16 }) ∧
    (¬ taken ir[11] ir[10] ir[9] s.cond → exec (decode ir) s = .next s)

/-- 41_control.md R131: JMP, and RET as JMP R7, change PC alone. -/
def Obligations.JumpThroughRegister : Prop :=
  ∀ (ir : Word) (s : State), ir.extractLsb' 12 4 = 0xC →
    exec (decode ir) s = .next { s with pc := s.reg (ir.extractLsb' 6 3) }

/-- 41_control.md R132: JSR writes the return address to R7 and jumps; COND and all else stay (that COND stays is decision D11, log 17). -/
def Obligations.JumpToSubroutine : Prop :=
  ∀ (ir : Word) (s : State), ir.extractLsb' 12 4 = 0x4 → ir[11] = true →
    ∃ t, exec (decode ir) s = .next t ∧ t.reg 7 = s.pc ∧ t.pc = s.pc + (ir.extractLsb' 0 11).signExtend 16 ∧
      KeepsRegsBut [7] s t ∧ t.cond = s.cond ∧ KeepsMemory s t ∧ KeepsControl s t ∧ KeepsChannels s t

/-- 41_control.md R133: JSRR writes R7 first and reads BaseR after; with BaseR = R7 it goes on at the next instruction
(decision D25, log 20). -/
def Obligations.JumpToSubroutineRegister : Prop :=
  ∀ (ir : Word) (s : State), ir.extractLsb' 12 4 = 0x4 → ir[11] = false →
    ∃ t, exec (decode ir) s = .next t ∧ t.reg 7 = s.pc ∧
      (ir.extractLsb' 6 3 ≠ (7 : Reg) → t.pc = s.reg (ir.extractLsb' 6 3)) ∧
      (ir.extractLsb' 6 3 = (7 : Reg) → t.pc = s.pc) ∧
      KeepsRegsBut [7] s t ∧ t.cond = s.cond ∧ KeepsMemory s t ∧ KeepsControl s t ∧ KeepsChannels s t

/-! ## Loads, LEA, stores -/

/-- 42_load_store.md R151. -/
def Obligations.LoadPcRelative : Prop :=
  ∀ (ir : Word) (s : State) (ea : Word), ir.extractLsb' 12 4 = 0x2 → ea = s.pc + (ir.extractLsb' 0 9).signExtend 16 →
    ∃ t, exec (decode ir) s = .next t ∧ LoadResult (ir.extractLsb' 9 3) (s.memRead ea) (ea ≠ 0xFE00) s t

/-- 42_load_store.md R152: the pointer read, then the value read in the state the first read left. -/
def Obligations.LoadIndirect : Prop :=
  ∀ (ir : Word) (s : State) (ea : Word), ir.extractLsb' 12 4 = 0xA → ea = s.pc + (ir.extractLsb' 0 9).signExtend 16 →
    ∃ t, exec (decode ir) s = .next t ∧
      LoadResult (ir.extractLsb' 9 3) ((s.memRead ea).2.memRead (s.memRead ea).1) (ea ≠ 0xFE00 ∧ s.mem.read ea ≠ 0xFE00) s t

/-- 42_load_store.md R153. -/
def Obligations.LoadBaseOffset : Prop :=
  ∀ (ir : Word) (s : State) (ea : Word), ir.extractLsb' 12 4 = 0x6 →
    ea = s.reg (ir.extractLsb' 6 3) + (ir.extractLsb' 0 6).signExtend 16 →
    ∃ t, exec (decode ir) s = .next t ∧ LoadResult (ir.extractLsb' 9 3) (s.memRead ea) (ea ≠ 0xFE00) s t

/-- 42_load_store.md R154: the address itself, no memory access, and COND set (90_conflicts.md C4, log 20). -/
def Obligations.LoadEffectiveAddress : Prop :=
  ∀ (ir : Word) (s : State), ir.extractLsb' 12 4 = 0xE →
    ∃ t, exec (decode ir) s = .next t ∧ OnlyResult (ir.extractLsb' 9 3) (s.pc + (ir.extractLsb' 0 9).signExtend 16) s t

/-- 42_load_store.md R155. -/
def Obligations.StorePcRelative : Prop :=
  ∀ (ir : Word) (s : State), ir.extractLsb' 12 4 = 0x3 →
    ∃ t, exec (decode ir) s = .next t ∧
      OnlyStore (s.pc + (ir.extractLsb' 0 9).signExtend 16) (s.reg (ir.extractLsb' 9 3)) s t

/-- 42_load_store.md R156: the store goes where the pointer read says, in the state that read left; a store to KBSR does not poll. -/
def Obligations.StoreIndirect : Prop :=
  ∀ (ir : Word) (s : State) (ea : Word), ir.extractLsb' 12 4 = 0xB → ea = s.pc + (ir.extractLsb' 0 9).signExtend 16 →
    ∃ t, exec (decode ir) s = .next t ∧ OnlyStore (s.memRead ea).1 (s.reg (ir.extractLsb' 9 3)) (s.memRead ea).2 t ∧
      KeepsRegsBut [] s t ∧ t.pc = s.pc ∧ t.cond = s.cond ∧ KeepsControl s t ∧ t.output = s.output ∧
      (ea ≠ 0xFE00 → KeepsMemoryBut (s.mem.read ea) s t ∧ t.input = s.input)

/-- 42_load_store.md R157. -/
def Obligations.StoreBaseOffset : Prop :=
  ∀ (ir : Word) (s : State), ir.extractLsb' 12 4 = 0x7 →
    ∃ t, exec (decode ir) s = .next t ∧
      OnlyStore (s.reg (ir.extractLsb' 6 3) + (ir.extractLsb' 0 6).signExtend 16) (s.reg (ir.extractLsb' 9 3)) s t

/-! ## TRAP -/

/-- 43_trap_system.md R186 (COND: decision D12, log 17), with a character at hand: GETC
puts it in R0, zero-extended, sets COND from it, and echoes nothing. -/
def Obligations.GetcReadsACharacter : Prop :=
  ∀ (ir : Word) (s : State) (c : Byte), ir.extractLsb' 12 4 = 0xF → ir.extractLsb' 0 8 = (0x20 : Byte) →
    s.input.draw.1 = some c →
    ∃ t, exec (decode ir) s = .next t ∧ Linked s t ∧ t.reg 0 = c.setWidth 16 ∧ t.cond = classify (c.setWidth 16) ∧
      t.input = s.input.draw.2 ∧ t.output = s.output ∧ t.hold = none ∧ KeepsRegsBut [0, 7] s t ∧ KeepsMemory s t ∧
      t.running = s.running ∧ t.fault = s.fault

/-- 43_trap_system.md R187: OUT writes the low byte of R0. -/
def Obligations.OutWritesLowByte : Prop :=
  ∀ (ir : Word) (s : State), ir.extractLsb' 12 4 = 0xF → ir.extractLsb' 0 8 = (0x21 : Byte) →
    ∃ t, exec (decode ir) s = .next t ∧ Linked s t ∧ t.output = s.output ++ [(s.reg 0).extractLsb' 0 8] ∧
      KeepsRegsBut [7] s t ∧ t.cond = s.cond ∧ t.input = s.input ∧ KeepsMemory s t ∧ KeepsControl s t

/-- 43_trap_system.md R188: PUTS returns exactly where the loop of the rule returns, in that loop's state; R0, COND and every register
but R7 are unchanged (the byte, the end test and the reads through the Memory Unit are decision D14, log 18). -/
def Obligations.PutsIsItsLoop : Prop :=
  ∀ (ir : Word) (s : State), ir.extractLsb' 12 4 = 0xF → ir.extractLsb' 0 8 = (0x22 : Byte) →
    ∀ t, (exec (decode ir) s = .next t ↔ StringRun (fun w => [w.extractLsb' 0 8]) (s.reg 0) s.link t) ∧
      (exec (decode ir) s = .next t →
        Linked s t ∧ KeepsRegsBut [7] s t ∧ t.cond = s.cond ∧ KeepsControl s t)

/-- 43_trap_system.md R189 (COND: decision D12, log 17; no prompt: D16, log 19), with a
character at hand: IN writes the (empty) prompt, echoes the character, and puts it in R0. -/
def Obligations.InReadsAndEchoes : Prop :=
  ∀ (ir : Word) (s : State) (c : Byte), ir.extractLsb' 12 4 = 0xF → ir.extractLsb' 0 8 = (0x23 : Byte) →
    s.input.draw.1 = some c →
    ∃ t, exec (decode ir) s = .next t ∧ Linked s t ∧ t.reg 0 = c.setWidth 16 ∧ t.cond = classify (c.setWidth 16) ∧
      t.input = s.input.draw.2 ∧ t.output = s.output ++ [c] ∧ t.hold = none ∧ KeepsRegsBut [0, 7] s t ∧ KeepsMemory s t ∧
      t.running = s.running ∧ t.fault = s.fault

/-- 43_trap_system.md R190: PUTSP returns exactly where the loop of the rule returns: low byte, then the high byte unless it is 0
(decision D15, log 18). -/
def Obligations.PutspIsItsLoop : Prop :=
  ∀ (ir : Word) (s : State), ir.extractLsb' 12 4 = 0xF → ir.extractLsb' 0 8 = (0x24 : Byte) →
    ∀ t, (exec (decode ir) s = .next t ↔
        StringRun (fun w => if w.extractLsb' 8 8 ≠ (0 : Byte) then [w.extractLsb' 0 8, w.extractLsb' 8 8] else [w.extractLsb' 0 8])
          (s.reg 0) s.link t) ∧
      (exec (decode ir) s = .next t →
        Linked s t ∧ KeepsRegsBut [7] s t ∧ t.cond = s.cond ∧ KeepsControl s t)

/-- 43_trap_system.md R191, R192: HALT writes the open HALT_MESSAGE, whatever it is, and clears the running flag; no other instruction
changes that flag. -/
def Obligations.HaltPrintsAndStops : Prop :=
  (∀ (ir : Word) (s : State), ir.extractLsb' 12 4 = 0xF → ir.extractLsb' 0 8 = (0x25 : Byte) →
    ∃ t, exec (decode ir) s = .next t ∧ Linked s t ∧ t.output = s.output ++ Config.haltMessage ∧ t.running = false ∧
      (s.fault = none → t.Final ∧ t.exitCode = some 0 ∧ ∀ u, step t ≠ .next u) ∧
      KeepsRegsBut [7] s t ∧ t.cond = s.cond ∧ t.fault = s.fault ∧ t.hold = s.hold ∧ t.input = s.input ∧ KeepsMemory s t) ∧
  ∀ (i : Instr) (s t : State), exec i s = .next t → t.running ≠ s.running → ∃ ignored, i = .trap ignored 0x25

/-- A string of words that stands in memory from R0, ends in 0x0000 and does not reach KBSR is written out by PUTS (a byte a word) and
by PUTSP (one or two bytes a word), and nothing else but R7 changes (43_trap_system.md R188, R190). -/
def Obligations.StringsAreWrittenOut : Prop :=
  ∀ (s : State) (ignored : BitVec 4) (ws : List Word),
    (∀ k (hk : k < ws.length), s.mem.read (s.reg 0 + BitVec.ofNat 16 k) = ws[k] ∧ ws[k] ≠ 0 ∧
      s.reg 0 + BitVec.ofNat 16 k ≠ 0xFE00) →
    s.mem.read (s.reg 0 + BitVec.ofNat 16 ws.length) = 0 → s.reg 0 + BitVec.ofNat 16 ws.length ≠ 0xFE00 →
    (∃ t, exec (.trap ignored 0x22) s = .next t ∧ Linked s t ∧ t.output = s.output ++ ws.map (·.extractLsb' 0 8) ∧
      KeepsRegsBut [7] s t ∧ t.cond = s.cond ∧ t.input = s.input ∧ KeepsMemory s t ∧ KeepsControl s t) ∧
    ∃ t, exec (.trap ignored 0x24) s = .next t ∧ Linked s t ∧
      t.output = s.output ++ ws.flatMap (fun w =>
        [w.extractLsb' 0 8] ++ if w.extractLsb' 8 8 = (0 : Byte) then [] else [w.extractLsb' 8 8]) ∧
      KeepsRegsBut [7] s t ∧ t.cond = s.cond ∧ t.input = s.input ∧ KeepsMemory s t ∧ KeepsControl s t

/-- A PUTS or PUTSP whose loop never returns stops under a name of its own, and no other does (43_trap_system.md R188, R190; that the
hang is shown as this stop is the model's choice, log 10). -/
def Obligations.EndlessStringStops : Prop :=
  ∀ (s : State) (ignored : BitVec 4),
    (exec (.trap ignored 0x22) s = .fault .routineNeverReturns ↔ ∀ t, ¬ StringRun putsBytes (s.reg 0) s.link t) ∧
    (exec (.trap ignored 0x24) s = .fault .routineNeverReturns ↔ ∀ t, ¬ StringRun putspBytes (s.reg 0) s.link t)

/-- The input hold (70_reset_and_hazards.md R247; that it is shown as steps in which only the input agent moves is the model's choice,
log 5). GETC and IN without a character write R7 and hold. A held state is not final; without a character only the agent moves, for ever
if it never has one; with a character the routine ends as it would have at once. -/
def Obligations.InputHold : Prop :=
  (∀ (s : State) (ignored : BitVec 4) (v : BitVec 8) (h : Hold), (v = 0x20 ∧ h = .getc) ∨ (v = 0x23 ∧ h = .inEcho) →
    s.input.draw.1 = none →
    ∃ t, exec (.trap ignored v) s = .next t ∧ t.hold = some h ∧ Linked s t ∧ KeepsRegsBut [7] s t ∧ t.cond = s.cond ∧
      t.input = s.input.draw.2 ∧ t.output = s.output ∧ KeepsMemory s t ∧ t.running = s.running ∧ t.fault = s.fault) ∧
  ∀ (s : State) (h : Hold), s.running = true → s.fault = none → s.hold = some h →
    ¬ s.Final ∧
    (s.input.draw.1 = none → step s = .next { s with input := s.input.draw.2 }) ∧
    (s.input = { answers := [], thereafter := none } → step s = .next s) ∧
    ∀ c, s.input.draw.1 = some c →
      ∃ t, step s = .next t ∧ t.hold = none ∧ t.reg 0 = c.setWidth 16 ∧ t.cond = classify (c.setWidth 16) ∧
        t.output = s.output ++ (match h with | .getc => [] | .inEcho => [c]) ∧ t.input = s.input.draw.2 ∧ t.pc = s.pc ∧
        KeepsRegsBut [0] s t ∧ KeepsMemory s t ∧ t.running = true ∧ t.fault = none

/-! ## Faults -/

/-- 43_trap_system.md R182: an unknown vector faults after the R7 write; the faulted state has R7 = pc and PC = pc (decision D18,
log 21). -/
def Obligations.UnknownVectorFaults : Prop :=
  ∀ (ir : Word) (s : State), ir.extractLsb' 12 4 = 0xF →
    ¬ (0x20 ≤ (ir.extractLsb' 0 8).toNat ∧ (ir.extractLsb' 0 8).toNat ≤ 0x25) →
    ∃ t, exec (decode ir) s = .next t ∧ t.fault = some { cause := .badTrapVector, ir := ir, addr := s.pc - 1 } ∧
      Linked s t ∧ KeepsRegsBut [7] s t ∧ t.cond = s.cond ∧ KeepsMemory s t ∧ t.running = s.running ∧ t.hold = s.hold ∧
      KeepsChannels s t

/-- 43_trap_system.md R196: RTI, with any low bits, records its fault and changes nothing else. -/
def Obligations.RtiFaults : Prop :=
  ∀ (ir : Word) (s : State), ir.extractLsb' 12 4 = 0x8 →
    exec (decode ir) s = .next { s with fault := some { cause := .rtiOpcode, ir := ir, addr := s.pc - 1 } }

/-- 43_trap_system.md R197: the reserved opcode, with any low bits, records its fault and changes nothing else. -/
def Obligations.ReservedOpcodeFaults : Prop :=
  ∀ (ir : Word) (s : State), ir.extractLsb' 12 4 = 0xD →
    exec (decode ir) s = .next { s with fault := some { cause := .reservedOpcode, ir := ir, addr := s.pc - 1 } }

/-- 60_exceptions.md R213: after a faulting step PC is the recorded address plus one, BAD_TRAP_VECTOR has R7 there too, `running` is
true, everything else is as the fetch left it, and no later step exists (decision D18, log 21). -/
def Obligations.FaultedStateIsFinal : Prop :=
  ∀ (s t : State) (f : FaultRecord), s.running = true → s.fault = none → s.hold = none → step s = .next t → t.fault = some f →
    f.addr = s.pc ∧ f.ir = (s.memRead s.pc).1 ∧ t.pc = f.addr + 1 ∧ (f.cause = .badTrapVector → t.reg 7 = f.addr + 1) ∧
      t.running = true ∧ KeepsRegsBut (if f.cause = .badTrapVector then [7] else []) s t ∧ t.cond = s.cond ∧
      KeepsMemory (s.memRead s.pc).2 t ∧ (s.pc ≠ 0xFE00 → KeepsMemory s t) ∧ t.output = s.output ∧
      t.exitCode = some Config.exitFault ∧ (∀ u, step t ≠ .next u)
end

