-- ==== Sys2Proof/Laws/Memory.lean ====
section
/-! SUPPORT. The laws of memory: read after write, the canonical form, and that canonical memories are told apart by their words. -/

namespace Sys2Proof.Machine

/-! ## Lookup after erase and insert -/

theorem Memory.lookup_erase_same (m : Memory) (a : Nat) : (m.erase a).lookup a = Memory.unlisted := by
  induction m with
  | nil => rfl
  | cons c rest ih =>
    obtain ⟨b, w⟩ := c
    by_cases h : b = a <;> simp [Memory.erase, Memory.lookup, h, ih]

theorem Memory.lookup_erase_ne (m : Memory) {a b : Nat} (h : b ≠ a) : (m.erase a).lookup b = m.lookup b := by
  induction m with
  | nil => rfl
  | cons c rest ih =>
    obtain ⟨k, w⟩ := c
    by_cases hk : k = a
    · have : a ≠ b := fun e => h e.symm
      simp [Memory.erase, Memory.lookup, hk, ih, this]
    · simp [Memory.erase, Memory.lookup, hk, ih]

theorem Memory.erase_not_mem (m : Memory) (a : Nat) : ∀ c ∈ m.erase a, c ∈ m ∧ c.1 ≠ a := by
  induction m with
  | nil => simp [Memory.erase]
  | cons c rest ih =>
    obtain ⟨b, w⟩ := c
    intro d hd
    by_cases hb : b = a
    · simp only [Memory.erase, hb, if_true] at hd
      exact ⟨List.mem_cons_of_mem _ (ih d hd).1, (ih d hd).2⟩
    · simp only [Memory.erase, hb, if_false, List.mem_cons] at hd
      rcases hd with rfl | hd
      · exact ⟨List.mem_cons_self, hb⟩
      · exact ⟨List.mem_cons_of_mem _ (ih d hd).1, (ih d hd).2⟩

theorem Memory.lookup_insert_same (m : Memory) (a : Nat) (v : Word) (h : ∀ c ∈ m, c.1 ≠ a) :
    (m.insert a v).lookup a = v := by
  induction m with
  | nil => simp [Memory.insert, Memory.lookup]
  | cons c rest ih =>
    obtain ⟨b, w⟩ := c
    have hb : b ≠ a := h _ List.mem_cons_self
    have ih := ih fun d hd => h d (List.mem_cons_of_mem _ hd)
    by_cases hlt : a < b <;> simp [Memory.insert, Memory.lookup, hlt, hb, ih]

theorem Memory.lookup_insert_ne (m : Memory) {a b : Nat} (v : Word) (h : b ≠ a) :
    (m.insert a v).lookup b = m.lookup b := by
  have ha : a ≠ b := fun e => h e.symm
  induction m with
  | nil => simp [Memory.insert, Memory.lookup, ha]
  | cons c rest ih =>
    obtain ⟨k, w⟩ := c
    by_cases hlt : a < k <;> simp [Memory.insert, Memory.lookup, hlt, ha, ih]

/-! ## Read after write -/

/-- A write is what the word then reads as. -/
@[simp] theorem Memory.read_write_same (m : Memory) (a v : Word) : (m.write a v).read a = v := by
  by_cases h : v = Memory.unlisted
  · simp [Memory.read, Memory.write, h, Memory.lookup_erase_same]
  · simp only [Memory.read, Memory.write, h, if_false]
    exact Memory.lookup_insert_same _ _ _ fun c hc => (Memory.erase_not_mem m a.toNat c hc).2

/-- A write leaves every other word alone. -/
theorem Memory.read_write_ne (m : Memory) {a b : Word} (v : Word) (h : b ≠ a) : (m.write a v).read b = m.read b := by
  have hn : b.toNat ≠ a.toNat := fun e => h (BitVec.eq_of_toNat_eq e)
  by_cases hv : v = Memory.unlisted
  · simp [Memory.read, Memory.write, hv, Memory.lookup_erase_ne m hn]
  · simp [Memory.read, Memory.write, hv, Memory.lookup_insert_ne _ v hn, Memory.lookup_erase_ne m hn]

/-- Reading after a write, both cases. -/
theorem Memory.read_write (m : Memory) (a b v : Word) : (m.write a v).read b = if b = a then v else m.read b := by
  by_cases h : b = a
  · subst h; simp
  · simp [h, Memory.read_write_ne]

/-! ## The canonical form -/

theorem Memory.erase_sublist (m : Memory) (a : Nat) : (m.erase a).Sublist m := by
  induction m with
  | nil => exact List.Sublist.slnil
  | cons c rest ih =>
    obtain ⟨b, w⟩ := c
    by_cases h : b = a
    · simpa [Memory.erase, h] using ih.cons (a, w)
    · simpa [Memory.erase, h] using ih.cons_cons (b, w)

theorem Memory.erase_wf {m : Memory} (a : Nat) (h : m.wf) : (m.erase a).wf :=
  ⟨h.1.sublist (m.erase_sublist a), fun c hc => h.2 c (Memory.erase_not_mem m a c hc).1⟩

theorem Memory.mem_insert {m : Memory} {a : Nat} {v : Word} {c : Nat × Word} (h : c ∈ m.insert a v) :
    c = (a, v) ∨ c ∈ m := by
  induction m with
  | nil => simpa [Memory.insert] using h
  | cons d rest ih =>
    obtain ⟨b, w⟩ := d
    by_cases hlt : a < b
    · simpa [Memory.insert, hlt] using h
    · simp only [Memory.insert, hlt, if_false, List.mem_cons] at h ⊢
      rcases h with h | h
      · exact .inr (.inl h)
      · exact (ih h).imp_right .inr

theorem Memory.insert_wf {m : Memory} {a : Nat} {v : Word} (h : m.wf) (ha : a < 0x10000) (hv : v ≠ Memory.unlisted)
    (hnew : ∀ c ∈ m, c.1 ≠ a) : (m.insert a v).wf := by
  refine ⟨?_, fun c hc => ?_⟩
  · replace h := h.1
    induction m with
    | nil => simp [Memory.insert]
    | cons d rest ih =>
      obtain ⟨b, w⟩ := d
      have hb : b ≠ a := hnew _ List.mem_cons_self
      obtain ⟨hhead, htail⟩ := List.pairwise_cons.mp h
      by_cases hlt : a < b
      · simp only [Memory.insert, hlt, if_true]
        refine List.pairwise_cons.mpr ⟨fun c hc => ?_, h⟩
        rcases List.mem_cons.mp hc with rfl | hc
        · exact hlt
        · exact hlt.trans (hhead c hc)
      · simp only [Memory.insert, hlt, if_false]
        refine List.pairwise_cons.mpr ⟨fun c hc => ?_, ih (fun c hc => hnew c (List.mem_cons_of_mem _ hc)) htail⟩
        rcases Memory.mem_insert hc with rfl | hc
        · show b < a; omega
        · exact hhead c hc
  · rcases Memory.mem_insert hc with rfl | hc
    · exact ⟨ha, hv⟩
    · exact h.2 c hc

/-- Every write keeps the canonical form. -/
theorem Memory.write_wf {m : Memory} (a v : Word) (h : m.wf) : (m.write a v).wf := by
  by_cases hv : v = Memory.unlisted
  · simpa only [Memory.write, hv, if_true] using Memory.erase_wf a.toNat h
  · simpa only [Memory.write, hv, if_false] using
      Memory.insert_wf (Memory.erase_wf a.toNat h) a.isLt hv fun c hc => (Memory.erase_not_mem m a.toNat c hc).2

/-- The memory with nothing listed is canonical. -/
theorem Memory.nil_wf : Memory.wf [] := ⟨List.Pairwise.nil, by simp⟩

/-! ## Canonical memories with equal words are equal -/

theorem Memory.lookup_of_lt {m : Memory} {a : Nat} (h : ∀ c ∈ m, a < c.1) : m.lookup a = Memory.unlisted := by
  induction m with
  | nil => rfl
  | cons c rest ih =>
    obtain ⟨b, w⟩ := c
    have hb : b ≠ a := Nat.ne_of_gt (h _ List.mem_cons_self)
    simp [Memory.lookup, hb, ih fun d hd => h d (List.mem_cons_of_mem _ hd)]

theorem Memory.eq_of_lookup {m n : Memory} (hm : m.wf) (hn : n.wf) (h : ∀ a, m.lookup a = n.lookup a) : m = n := by
  induction m generalizing n with
  | nil =>
    cases n with
    | nil => rfl
    | cons d ns =>
      have := h d.1
      simp only [Memory.lookup, if_true] at this
      exact absurd this.symm (hn.2 d List.mem_cons_self).2
  | cons c ms ih =>
    obtain ⟨a, v⟩ := c
    obtain ⟨mhead, mtail⟩ := List.pairwise_cons.mp hm.1
    have hv : v ≠ Memory.unlisted := (hm.2 _ List.mem_cons_self).2
    cases n with
    | nil =>
      have := h a
      simp only [Memory.lookup, if_true] at this
      exact absurd this hv
    | cons d ns =>
      obtain ⟨b, w⟩ := d
      obtain ⟨nhead, ntail⟩ := List.pairwise_cons.mp hn.1
      have hw : w ≠ Memory.unlisted := (hn.2 _ List.mem_cons_self).2
      have hab : a = b := by
        by_contra hne
        rcases Nat.lt_or_gt_of_ne hne with hlt | hlt
        · have h0 : Memory.lookup ((b, w) :: ns) a = Memory.unlisted := by
            apply Memory.lookup_of_lt
            intro c hc
            rcases List.mem_cons.mp hc with rfl | hc
            · exact hlt
            · exact hlt.trans (nhead c hc)
          have := h a
          simp only [Memory.lookup, if_true] at this h0
          exact hv (this.trans h0)
        · have h0 : Memory.lookup ((a, v) :: ms) b = Memory.unlisted := by
            apply Memory.lookup_of_lt
            intro c hc
            rcases List.mem_cons.mp hc with rfl | hc
            · exact hlt
            · exact hlt.trans (mhead c hc)
          have := h b
          simp only [Memory.lookup, if_true] at this h0
          exact hw (this.symm.trans h0)
      subst hab
      have hvw : v = w := by simpa [Memory.lookup] using h a
      subst hvw
      have : ms = ns := by
        refine ih ⟨mtail, fun c hc => hm.2 c (List.mem_cons_of_mem _ hc)⟩ ⟨ntail, fun c hc => hn.2 c (List.mem_cons_of_mem _ hc)⟩ ?_
        intro k
        by_cases hk : a = k
        · subst hk
          rw [Memory.lookup_of_lt mhead, Memory.lookup_of_lt nhead]
        · simpa [Memory.lookup, hk] using h k
      rw [this]

theorem Memory.lookup_of_ge {m : Memory} (hm : m.wf) {a : Nat} (h : 0x10000 ≤ a) : m.lookup a = Memory.unlisted := by
  induction m with
  | nil => rfl
  | cons c rest ih =>
    obtain ⟨b, w⟩ := c
    have hb : b ≠ a := Nat.ne_of_lt (Nat.lt_of_lt_of_le (hm.2 _ List.mem_cons_self).1 h)
    have ih := ih ⟨(List.pairwise_cons.mp hm.1).2, fun c hc => hm.2 c (List.mem_cons_of_mem _ hc)⟩
    simp [Memory.lookup, hb, ih]

/-- Two canonical memories that read alike at every address are the same data. -/
theorem Memory.ext_read {m n : Memory} (hm : m.wf) (hn : n.wf) (h : ∀ a, m.read a = n.read a) : m = n := by
  refine Memory.eq_of_lookup hm hn fun a => ?_
  by_cases ha : a < 0x10000
  · have := h (BitVec.ofNat 16 a)
    simpa [Memory.read, Nat.mod_eq_of_lt ha] using this
  · rw [Memory.lookup_of_ge hm (by omega), Memory.lookup_of_ge hn (by omega)]

/-- Writing what is already there changes nothing. -/
theorem Memory.write_read_self {m : Memory} (hm : m.wf) (a : Word) : m.write a (m.read a) = m := by
  refine Memory.ext_read (Memory.write_wf a _ hm) hm fun b => ?_
  by_cases h : b = a
  · subst h; simp
  · exact Memory.read_write_ne m _ h

end Sys2Proof.Machine
end

