-- ==== Sys2Proof/Laws/State.lean ====
section
/-! SUPPORT. What each field holds after each update of Sys2Proof/Machine/Ops.lean. -/

namespace Sys2Proof.Machine

/-! ## setReg -/

@[simp] theorem State.setReg_regs (s : State) (r : Reg) (v : Word) : (s.setReg r v).regs = s.regs.set r.toNat v := rfl
@[simp] theorem State.setReg_pc (s : State) (r : Reg) (v : Word) : (s.setReg r v).pc = s.pc := rfl
@[simp] theorem State.setReg_cond (s : State) (r : Reg) (v : Word) : (s.setReg r v).cond = s.cond := rfl
@[simp] theorem State.setReg_mem (s : State) (r : Reg) (v : Word) : (s.setReg r v).mem = s.mem := rfl
@[simp] theorem State.setReg_running (s : State) (r : Reg) (v : Word) : (s.setReg r v).running = s.running := rfl
@[simp] theorem State.setReg_fault (s : State) (r : Reg) (v : Word) : (s.setReg r v).fault = s.fault := rfl
@[simp] theorem State.setReg_hold (s : State) (r : Reg) (v : Word) : (s.setReg r v).hold = s.hold := rfl
@[simp] theorem State.setReg_input (s : State) (r : Reg) (v : Word) : (s.setReg r v).input = s.input := rfl
@[simp] theorem State.setReg_output (s : State) (r : Reg) (v : Word) : (s.setReg r v).output = s.output := rfl

/-! ## setPc -/

@[simp] theorem State.setPc_regs (s : State) (v : Word) : (s.setPc v).regs = s.regs := rfl
@[simp] theorem State.setPc_pc (s : State) (v : Word) : (s.setPc v).pc = v := rfl
@[simp] theorem State.setPc_cond (s : State) (v : Word) : (s.setPc v).cond = s.cond := rfl
@[simp] theorem State.setPc_mem (s : State) (v : Word) : (s.setPc v).mem = s.mem := rfl
@[simp] theorem State.setPc_running (s : State) (v : Word) : (s.setPc v).running = s.running := rfl
@[simp] theorem State.setPc_fault (s : State) (v : Word) : (s.setPc v).fault = s.fault := rfl
@[simp] theorem State.setPc_hold (s : State) (v : Word) : (s.setPc v).hold = s.hold := rfl
@[simp] theorem State.setPc_input (s : State) (v : Word) : (s.setPc v).input = s.input := rfl
@[simp] theorem State.setPc_output (s : State) (v : Word) : (s.setPc v).output = s.output := rfl

/-! ## setCond -/

@[simp] theorem State.setCond_regs (s : State) (c : Cond) : (s.setCond c).regs = s.regs := rfl
@[simp] theorem State.setCond_pc (s : State) (c : Cond) : (s.setCond c).pc = s.pc := rfl
@[simp] theorem State.setCond_cond (s : State) (c : Cond) : (s.setCond c).cond = c := rfl
@[simp] theorem State.setCond_mem (s : State) (c : Cond) : (s.setCond c).mem = s.mem := rfl
@[simp] theorem State.setCond_running (s : State) (c : Cond) : (s.setCond c).running = s.running := rfl
@[simp] theorem State.setCond_fault (s : State) (c : Cond) : (s.setCond c).fault = s.fault := rfl
@[simp] theorem State.setCond_hold (s : State) (c : Cond) : (s.setCond c).hold = s.hold := rfl
@[simp] theorem State.setCond_input (s : State) (c : Cond) : (s.setCond c).input = s.input := rfl
@[simp] theorem State.setCond_output (s : State) (c : Cond) : (s.setCond c).output = s.output := rfl

/-! ## setMem -/

@[simp] theorem State.setMem_regs (s : State) (m : Memory) : (s.setMem m).regs = s.regs := rfl
@[simp] theorem State.setMem_pc (s : State) (m : Memory) : (s.setMem m).pc = s.pc := rfl
@[simp] theorem State.setMem_cond (s : State) (m : Memory) : (s.setMem m).cond = s.cond := rfl
@[simp] theorem State.setMem_mem (s : State) (m : Memory) : (s.setMem m).mem = m := rfl
@[simp] theorem State.setMem_running (s : State) (m : Memory) : (s.setMem m).running = s.running := rfl
@[simp] theorem State.setMem_fault (s : State) (m : Memory) : (s.setMem m).fault = s.fault := rfl
@[simp] theorem State.setMem_hold (s : State) (m : Memory) : (s.setMem m).hold = s.hold := rfl
@[simp] theorem State.setMem_input (s : State) (m : Memory) : (s.setMem m).input = s.input := rfl
@[simp] theorem State.setMem_output (s : State) (m : Memory) : (s.setMem m).output = s.output := rfl

/-! ## stopRunning -/

@[simp] theorem State.stopRunning_regs (s : State) : (s.stopRunning).regs = s.regs := rfl
@[simp] theorem State.stopRunning_pc (s : State) : (s.stopRunning).pc = s.pc := rfl
@[simp] theorem State.stopRunning_cond (s : State) : (s.stopRunning).cond = s.cond := rfl
@[simp] theorem State.stopRunning_mem (s : State) : (s.stopRunning).mem = s.mem := rfl
@[simp] theorem State.stopRunning_running (s : State) : (s.stopRunning).running = false := rfl
@[simp] theorem State.stopRunning_fault (s : State) : (s.stopRunning).fault = s.fault := rfl
@[simp] theorem State.stopRunning_hold (s : State) : (s.stopRunning).hold = s.hold := rfl
@[simp] theorem State.stopRunning_input (s : State) : (s.stopRunning).input = s.input := rfl
@[simp] theorem State.stopRunning_output (s : State) : (s.stopRunning).output = s.output := rfl

/-! ## setFault -/

@[simp] theorem State.setFault_regs (s : State) (f : FaultRecord) : (s.setFault f).regs = s.regs := rfl
@[simp] theorem State.setFault_pc (s : State) (f : FaultRecord) : (s.setFault f).pc = s.pc := rfl
@[simp] theorem State.setFault_cond (s : State) (f : FaultRecord) : (s.setFault f).cond = s.cond := rfl
@[simp] theorem State.setFault_mem (s : State) (f : FaultRecord) : (s.setFault f).mem = s.mem := rfl
@[simp] theorem State.setFault_running (s : State) (f : FaultRecord) : (s.setFault f).running = s.running := rfl
@[simp] theorem State.setFault_fault (s : State) (f : FaultRecord) : (s.setFault f).fault = some f := rfl
@[simp] theorem State.setFault_hold (s : State) (f : FaultRecord) : (s.setFault f).hold = s.hold := rfl
@[simp] theorem State.setFault_input (s : State) (f : FaultRecord) : (s.setFault f).input = s.input := rfl
@[simp] theorem State.setFault_output (s : State) (f : FaultRecord) : (s.setFault f).output = s.output := rfl

/-! ## setHold -/

@[simp] theorem State.setHold_regs (s : State) (h : Option Hold) : (s.setHold h).regs = s.regs := rfl
@[simp] theorem State.setHold_pc (s : State) (h : Option Hold) : (s.setHold h).pc = s.pc := rfl
@[simp] theorem State.setHold_cond (s : State) (h : Option Hold) : (s.setHold h).cond = s.cond := rfl
@[simp] theorem State.setHold_mem (s : State) (h : Option Hold) : (s.setHold h).mem = s.mem := rfl
@[simp] theorem State.setHold_running (s : State) (h : Option Hold) : (s.setHold h).running = s.running := rfl
@[simp] theorem State.setHold_fault (s : State) (h : Option Hold) : (s.setHold h).fault = s.fault := rfl
@[simp] theorem State.setHold_hold (s : State) (h : Option Hold) : (s.setHold h).hold = h := rfl
@[simp] theorem State.setHold_input (s : State) (h : Option Hold) : (s.setHold h).input = s.input := rfl
@[simp] theorem State.setHold_output (s : State) (h : Option Hold) : (s.setHold h).output = s.output := rfl

/-! ## setInput -/

@[simp] theorem State.setInput_regs (s : State) (agent : InputAgent) : (s.setInput agent).regs = s.regs := rfl
@[simp] theorem State.setInput_pc (s : State) (agent : InputAgent) : (s.setInput agent).pc = s.pc := rfl
@[simp] theorem State.setInput_cond (s : State) (agent : InputAgent) : (s.setInput agent).cond = s.cond := rfl
@[simp] theorem State.setInput_mem (s : State) (agent : InputAgent) : (s.setInput agent).mem = s.mem := rfl
@[simp] theorem State.setInput_running (s : State) (agent : InputAgent) : (s.setInput agent).running = s.running := rfl
@[simp] theorem State.setInput_fault (s : State) (agent : InputAgent) : (s.setInput agent).fault = s.fault := rfl
@[simp] theorem State.setInput_hold (s : State) (agent : InputAgent) : (s.setInput agent).hold = s.hold := rfl
@[simp] theorem State.setInput_input (s : State) (agent : InputAgent) : (s.setInput agent).input = agent := rfl
@[simp] theorem State.setInput_output (s : State) (agent : InputAgent) : (s.setInput agent).output = s.output := rfl

/-! ## putBytes -/

@[simp] theorem State.putBytes_regs (s : State) (bytes : List Byte) : (s.putBytes bytes).regs = s.regs := rfl
@[simp] theorem State.putBytes_pc (s : State) (bytes : List Byte) : (s.putBytes bytes).pc = s.pc := rfl
@[simp] theorem State.putBytes_cond (s : State) (bytes : List Byte) : (s.putBytes bytes).cond = s.cond := rfl
@[simp] theorem State.putBytes_mem (s : State) (bytes : List Byte) : (s.putBytes bytes).mem = s.mem := rfl
@[simp] theorem State.putBytes_running (s : State) (bytes : List Byte) : (s.putBytes bytes).running = s.running := rfl
@[simp] theorem State.putBytes_fault (s : State) (bytes : List Byte) : (s.putBytes bytes).fault = s.fault := rfl
@[simp] theorem State.putBytes_hold (s : State) (bytes : List Byte) : (s.putBytes bytes).hold = s.hold := rfl
@[simp] theorem State.putBytes_input (s : State) (bytes : List Byte) : (s.putBytes bytes).input = s.input := rfl
@[simp] theorem State.putBytes_output (s : State) (bytes : List Byte) : (s.putBytes bytes).output = s.output ++ bytes := rfl

/-! ## Registers -/

/-- A write to Ri is what Ri then holds. -/
@[simp] theorem State.reg_setReg_same (s : State) (r : Reg) (v : Word) : (s.setReg r v).reg r = v := by
  simp [State.reg]

/-- A write to Ri leaves every other register alone. -/
theorem State.reg_setReg_ne (s : State) {r q : Reg} (v : Word) (h : q ≠ r) : (s.setReg r v).reg q = s.reg q := by
  have hn : r.toNat ≠ q.toNat := fun e => h (BitVec.eq_of_toNat_eq e.symm)
  simp [State.reg, Vector.getElem_set_ne, hn]

/-- Reading after a register write, both cases. -/
theorem State.reg_setReg (s : State) (r q : Reg) (v : Word) :
    (s.setReg r v).reg q = if q = r then v else s.reg q := by
  by_cases h : q = r
  · subst h; simp
  · simp [h, State.reg_setReg_ne]

@[simp] theorem State.setPc_reg (s : State) (v : Word) (q : Reg) : (s.setPc v).reg q = s.reg q := rfl
@[simp] theorem State.setCond_reg (s : State) (c : Cond) (q : Reg) : (s.setCond c).reg q = s.reg q := rfl
@[simp] theorem State.setMem_reg (s : State) (m : Memory) (q : Reg) : (s.setMem m).reg q = s.reg q := rfl
@[simp] theorem State.stopRunning_reg (s : State) (q : Reg) : (s.stopRunning).reg q = s.reg q := rfl
@[simp] theorem State.setFault_reg (s : State) (f : FaultRecord) (q : Reg) : (s.setFault f).reg q = s.reg q := rfl
@[simp] theorem State.setHold_reg (s : State) (h : Option Hold) (q : Reg) : (s.setHold h).reg q = s.reg q := rfl
@[simp] theorem State.setInput_reg (s : State) (agent : InputAgent) (q : Reg) : (s.setInput agent).reg q = s.reg q := rfl
@[simp] theorem State.putBytes_reg (s : State) (bytes : List Byte) (q : Reg) : (s.putBytes bytes).reg q = s.reg q := rfl

/-- Two states that agree in every field are the same state. -/
theorem State.ext_fields {s t : State} (hregs : ∀ r, s.reg r = t.reg r) (hpc : s.pc = t.pc) (hcond : s.cond = t.cond)
    (hmem : s.mem = t.mem) (hrunning : s.running = t.running) (hfault : s.fault = t.fault) (hhold : s.hold = t.hold)
    (hinput : s.input = t.input) (houtput : s.output = t.output) : s = t := by
  obtain ⟨sr, _, _, _, _, _, _, _, _⟩ := s
  obtain ⟨tr, _, _, _, _, _, _, _, _⟩ := t
  have : sr = tr := by
    refine Vector.ext fun k hk => ?_
    have := hregs (BitVec.ofNat 3 k)
    simpa [State.reg, Nat.mod_eq_of_lt hk] using this
  simp_all

end Sys2Proof.Machine
end

