-- ==== Sys2Proof/Laws/Ops.lean ====
section
/-! SUPPORT. One lemma for each shared operation of Sys2Proof/Machine/Ops.lean and Flags.lean, saying all it does. -/

namespace Sys2Proof.Machine

/-! ## Stores and result writes -/

@[simp] theorem State.memWrite_mem (s : State) (a v : Word) : (s.memWrite a v).mem = s.mem.write a v := rfl
@[simp] theorem State.memWrite_reg (s : State) (a v : Word) (q : Reg) : (s.memWrite a v).reg q = s.reg q := rfl
@[simp] theorem State.memWrite_pc (s : State) (a v : Word) : (s.memWrite a v).pc = s.pc := rfl
@[simp] theorem State.memWrite_cond (s : State) (a v : Word) : (s.memWrite a v).cond = s.cond := rfl
@[simp] theorem State.memWrite_running (s : State) (a v : Word) : (s.memWrite a v).running = s.running := rfl
@[simp] theorem State.memWrite_fault (s : State) (a v : Word) : (s.memWrite a v).fault = s.fault := rfl
@[simp] theorem State.memWrite_hold (s : State) (a v : Word) : (s.memWrite a v).hold = s.hold := rfl
@[simp] theorem State.memWrite_input (s : State) (a v : Word) : (s.memWrite a v).input = s.input := rfl
@[simp] theorem State.memWrite_output (s : State) (a v : Word) : (s.memWrite a v).output = s.output := rfl

@[simp] theorem State.writeResult_cond (s : State) (r : Reg) (v : Word) : (s.writeResult r v).cond = classify v := rfl
@[simp] theorem State.writeResult_pc (s : State) (r : Reg) (v : Word) : (s.writeResult r v).pc = s.pc := rfl
@[simp] theorem State.writeResult_mem (s : State) (r : Reg) (v : Word) : (s.writeResult r v).mem = s.mem := rfl
@[simp] theorem State.writeResult_running (s : State) (r : Reg) (v : Word) : (s.writeResult r v).running = s.running := rfl
@[simp] theorem State.writeResult_fault (s : State) (r : Reg) (v : Word) : (s.writeResult r v).fault = s.fault := rfl
@[simp] theorem State.writeResult_hold (s : State) (r : Reg) (v : Word) : (s.writeResult r v).hold = s.hold := rfl
@[simp] theorem State.writeResult_input (s : State) (r : Reg) (v : Word) : (s.writeResult r v).input = s.input := rfl
@[simp] theorem State.writeResult_output (s : State) (r : Reg) (v : Word) : (s.writeResult r v).output = s.output := rfl
@[simp] theorem State.reg_writeResult_same (s : State) (r : Reg) (v : Word) : (s.writeResult r v).reg r = v := by
  simp [State.writeResult, State.setcc]

theorem State.reg_writeResult_ne (s : State) {r q : Reg} (v : Word) (h : q ≠ r) : (s.writeResult r v).reg q = s.reg q := by
  simp [State.writeResult, State.setcc, State.reg_setReg_ne s v h]

@[simp] theorem State.link_reg_same (s : State) : s.link.reg 7#3 = s.pc := by simp [State.link]

theorem State.link_reg_ne (s : State) {q : Reg} (h : q ≠ 7#3) : s.link.reg q = s.reg q :=
  s.reg_setReg_ne s.pc h

@[simp] theorem State.link_pc (s : State) : s.link.pc = s.pc := rfl
@[simp] theorem State.link_cond (s : State) : s.link.cond = s.cond := rfl
@[simp] theorem State.link_mem (s : State) : s.link.mem = s.mem := rfl
@[simp] theorem State.link_running (s : State) : s.link.running = s.running := rfl
@[simp] theorem State.link_fault (s : State) : s.link.fault = s.fault := rfl
@[simp] theorem State.link_hold (s : State) : s.link.hold = s.hold := rfl
@[simp] theorem State.link_input (s : State) : s.link.input = s.input := rfl
@[simp] theorem State.link_output (s : State) : s.link.output = s.output := rfl

/-! ## The poll -/

/-- KBSR and KBDR are two addresses. -/
theorem kbdr_ne_kbsr : kbdr ≠ kbsr := by decide

/-- The states a poll can leave: the agent has moved on, and the keyboard registers are rewritten as 20_memory.md R56 says. -/
theorem State.pollKeyboard_cases (s : State) :
    (∃ c, s.input.draw.1 = some c ∧ s.pollKeyboard =
      (s.setInput s.input.draw.2).setMem ((s.mem.write kbsr 0x8000#16).write kbdr (charWord c))) ∨
    (s.input.draw.1 = none ∧ s.pollKeyboard = (s.setInput s.input.draw.2).setMem (s.mem.write kbsr 0x0000#16)) := by
  cases h : s.input.draw.1 with
  | some c => exact .inl ⟨c, rfl, by simp [State.pollKeyboard, State.poll, h, State.memWrite, State.setMem]⟩
  | none => exact .inr ⟨rfl, by simp [State.pollKeyboard, State.poll, h, State.memWrite]⟩

/-- What a poll leaves in memory. -/
theorem State.pollKeyboard_read (s : State) (a : Word) :
    s.pollKeyboard.mem.read a =
      if a = kbsr then (if s.input.draw.1.isSome then 0x8000#16 else 0x0000#16)
      else match s.input.draw.1 with
        | some c => if a = kbdr then charWord c else s.mem.read a
        | none => s.mem.read a := by
  rcases s.pollKeyboard_cases with ⟨c, hc, he⟩ | ⟨hc, he⟩
  · rw [he, hc]
    simp only [State.setMem_mem, Memory.read_write, Option.isSome_some, if_true]
    by_cases h : a = kbsr
    · subst h; simp [kbdr_ne_kbsr.symm]
    · simp [h]
  · rw [he, hc]
    simp [Memory.read_write]

/-- A poll changes nothing but memory and the agent. -/
theorem State.pollKeyboard_frame (s : State) :
    s.pollKeyboard = { s with mem := s.pollKeyboard.mem, input := s.input.draw.2 } := by
  rcases s.pollKeyboard_cases with ⟨c, -, he⟩ | ⟨-, he⟩ <;> rw [he] <;> rfl

/-! ## MemRead -/

/-- A read changes nothing but memory and the agent, and those only at KBSR. -/
theorem State.memRead_frame (s : State) (a : Word) :
    (s.memRead a).2 = { s with mem := (s.memRead a).2.mem, input := (s.memRead a).2.input } := by
  by_cases h : a = kbsr
  · simp only [State.memRead, h, if_true]
    conv_lhs => rw [s.pollKeyboard_frame]
    rw [s.pollKeyboard_frame]
  · simp [State.memRead, h]

/-- A plain read (20_memory.md R55). -/
theorem State.memRead_plain (s : State) {a : Word} (h : a ≠ kbsr) : s.memRead a = (s.mem.read a, s) := by
  simp [State.memRead, h]

/-- A read of KBSR (20_memory.md R56). -/
theorem State.memRead_kbsr (s : State) :
    s.memRead kbsr = (if s.input.draw.1.isSome then 0x8000#16 else 0x0000#16, s.pollKeyboard) := by
  have := s.pollKeyboard_read kbsr
  simp only [if_true] at this
  simp [State.memRead, this]

@[simp] theorem State.memRead_reg (s : State) (a : Word) (q : Reg) : (s.memRead a).2.reg q = s.reg q := by
  rw [s.memRead_frame a]; rfl

@[simp] theorem State.memRead_pc (s : State) (a : Word) : (s.memRead a).2.pc = s.pc := by rw [s.memRead_frame a]
@[simp] theorem State.memRead_cond (s : State) (a : Word) : (s.memRead a).2.cond = s.cond := by rw [s.memRead_frame a]
@[simp] theorem State.memRead_running (s : State) (a : Word) : (s.memRead a).2.running = s.running := by
  rw [s.memRead_frame a]
@[simp] theorem State.memRead_fault (s : State) (a : Word) : (s.memRead a).2.fault = s.fault := by rw [s.memRead_frame a]
@[simp] theorem State.memRead_hold (s : State) (a : Word) : (s.memRead a).2.hold = s.hold := by rw [s.memRead_frame a]
@[simp] theorem State.memRead_output (s : State) (a : Word) : (s.memRead a).2.output = s.output := by
  rw [s.memRead_frame a]

/-- A read leaves every word but KBSR and KBDR alone. -/
theorem State.memRead_read (s : State) {a b : Word} (h1 : b ≠ kbsr) (h2 : b ≠ kbdr) :
    (s.memRead a).2.mem.read b = s.mem.read b := by
  by_cases h : a = kbsr
  · subst h
    rw [s.memRead_kbsr, s.pollKeyboard_read]
    cases s.input.draw.1 <;> simp [h1, h2]
  · rw [s.memRead_plain h]

/-- A read keeps memory canonical. -/
theorem State.memRead_wf (s : State) (a : Word) (h : s.mem.wf) : (s.memRead a).2.mem.wf := by
  by_cases ha : a = kbsr
  · subst ha
    simp only [s.memRead_kbsr]
    rcases s.pollKeyboard_cases with ⟨c, -, he⟩ | ⟨-, he⟩ <;> rw [he]
    · exact Memory.write_wf kbdr (charWord c) (Memory.write_wf kbsr 0x8000#16 h)
    · exact Memory.write_wf kbsr 0x0000#16 h
  · rwa [s.memRead_plain ha]

/-- A read does not look at COND (10_state.md R28). -/
theorem State.memRead_setCond (s : State) (a : Word) (c : Cond) :
    (s.setCond c).memRead a = ((s.memRead a).1, (s.memRead a).2.setCond c) := by
  have hp : (s.setCond c).pollKeyboard = s.pollKeyboard.setCond c := by
    unfold State.pollKeyboard State.poll
    simp only [State.setCond_input]
    cases s.input.draw.1 <;> rfl
  unfold State.memRead
  rw [hp]
  split <;> rfl

/-! ## GetChar -/

/-- What a request of GETC or IN does: with a character it delivers it, without one it holds. -/
theorem State.awaitChar_cases (s : State) (h : Hold) :
    (∃ c, s.input.draw.1 = some c ∧
      s.awaitChar h = ((s.setInput s.input.draw.2).deliver h c).setHold none) ∨
    (s.input.draw.1 = none ∧ s.awaitChar h = (s.setInput s.input.draw.2).setHold (some h)) := by
  cases hd : s.input.draw.1 with
  | some c => exact .inl ⟨c, rfl, by simp [State.awaitChar, State.poll, hd]⟩
  | none => exact .inr ⟨rfl, by simp [State.awaitChar, State.poll, hd]⟩

end Sys2Proof.Machine
end

