-- ==== Sys2Proof/Laws/PerInstr.lean ====
section
/-! SUPPORT. A fact about each instruction as syntax: its encoding lies in its own row of the opcode table (30_encoding.md R82, R94).
The masks and patterns of the rows are the table's, the encoder is written from the format tables R84-R92. -/

namespace Sys2Proof.Laws.EncodesInItsRow

/-- The word of the instruction matches the mask and pattern of its row. -/
def Statement (i : Instr) : Prop := i.row.matchesWord (encode i) = true

theorem br (n z p : Bool) (off : BitVec 9) : Statement (.br n z p off) := by
  simp only [Statement, Instr.row, EncodingRow.matchesWord, encode, beq_iff_eq]
  ext k hk
  simp only [place, BitVec.getElem_and, BitVec.getElem_or, BitVec.getElem_shiftLeft, BitVec.getElem_setWidth]
  interval_cases k <;> simp

theorem addReg (dr sr1 : Reg) (ignored : BitVec 2) (sr2 : Reg) : Statement (.addReg dr sr1 ignored sr2) := by
  simp only [Statement, Instr.row, EncodingRow.matchesWord, encode, beq_iff_eq]
  ext k hk
  simp only [place, BitVec.getElem_and, BitVec.getElem_or, BitVec.getElem_shiftLeft, BitVec.getElem_setWidth]
  interval_cases k <;> simp

theorem addImm (dr sr1 : Reg) (imm5 : BitVec 5) : Statement (.addImm dr sr1 imm5) := by
  simp only [Statement, Instr.row, EncodingRow.matchesWord, encode, beq_iff_eq]
  ext k hk
  simp only [place, BitVec.getElem_and, BitVec.getElem_or, BitVec.getElem_shiftLeft, BitVec.getElem_setWidth]
  interval_cases k <;> simp

theorem ld (dr : Reg) (off : BitVec 9) : Statement (.ld dr off) := by
  simp only [Statement, Instr.row, EncodingRow.matchesWord, encode, beq_iff_eq]
  ext k hk
  simp only [place, BitVec.getElem_and, BitVec.getElem_or, BitVec.getElem_shiftLeft, BitVec.getElem_setWidth]
  interval_cases k <;> simp

theorem st (sr : Reg) (off : BitVec 9) : Statement (.st sr off) := by
  simp only [Statement, Instr.row, EncodingRow.matchesWord, encode, beq_iff_eq]
  ext k hk
  simp only [place, BitVec.getElem_and, BitVec.getElem_or, BitVec.getElem_shiftLeft, BitVec.getElem_setWidth]
  interval_cases k <;> simp

theorem jsr (off : BitVec 11) : Statement (.jsr off) := by
  simp only [Statement, Instr.row, EncodingRow.matchesWord, encode, beq_iff_eq]
  ext k hk
  simp only [place, BitVec.getElem_and, BitVec.getElem_or, BitVec.getElem_shiftLeft, BitVec.getElem_setWidth]
  interval_cases k <;> simp

theorem jsrr (ignoredHi : BitVec 2) (baseR : Reg) (ignoredLo : BitVec 6) : Statement (.jsrr ignoredHi baseR ignoredLo) := by
  simp only [Statement, Instr.row, EncodingRow.matchesWord, encode, beq_iff_eq]
  ext k hk
  simp only [place, BitVec.getElem_and, BitVec.getElem_or, BitVec.getElem_shiftLeft, BitVec.getElem_setWidth]
  interval_cases k <;> simp

theorem andReg (dr sr1 : Reg) (ignored : BitVec 2) (sr2 : Reg) : Statement (.andReg dr sr1 ignored sr2) := by
  simp only [Statement, Instr.row, EncodingRow.matchesWord, encode, beq_iff_eq]
  ext k hk
  simp only [place, BitVec.getElem_and, BitVec.getElem_or, BitVec.getElem_shiftLeft, BitVec.getElem_setWidth]
  interval_cases k <;> simp

theorem andImm (dr sr1 : Reg) (imm5 : BitVec 5) : Statement (.andImm dr sr1 imm5) := by
  simp only [Statement, Instr.row, EncodingRow.matchesWord, encode, beq_iff_eq]
  ext k hk
  simp only [place, BitVec.getElem_and, BitVec.getElem_or, BitVec.getElem_shiftLeft, BitVec.getElem_setWidth]
  interval_cases k <;> simp

theorem ldr (dr baseR : Reg) (off : BitVec 6) : Statement (.ldr dr baseR off) := by
  simp only [Statement, Instr.row, EncodingRow.matchesWord, encode, beq_iff_eq]
  ext k hk
  simp only [place, BitVec.getElem_and, BitVec.getElem_or, BitVec.getElem_shiftLeft, BitVec.getElem_setWidth]
  interval_cases k <;> simp

theorem str (sr baseR : Reg) (off : BitVec 6) : Statement (.str sr baseR off) := by
  simp only [Statement, Instr.row, EncodingRow.matchesWord, encode, beq_iff_eq]
  ext k hk
  simp only [place, BitVec.getElem_and, BitVec.getElem_or, BitVec.getElem_shiftLeft, BitVec.getElem_setWidth]
  interval_cases k <;> simp

theorem rti (ignored : BitVec 12) : Statement (.rti ignored) := by
  simp only [Statement, Instr.row, EncodingRow.matchesWord, encode, beq_iff_eq]
  ext k hk
  simp only [place, BitVec.getElem_and, BitVec.getElem_or, BitVec.getElem_shiftLeft, BitVec.getElem_setWidth]
  interval_cases k <;> simp

theorem not (dr sr1 : Reg) (ignored : BitVec 6) : Statement (.not dr sr1 ignored) := by
  simp only [Statement, Instr.row, EncodingRow.matchesWord, encode, beq_iff_eq]
  ext k hk
  simp only [place, BitVec.getElem_and, BitVec.getElem_or, BitVec.getElem_shiftLeft, BitVec.getElem_setWidth]
  interval_cases k <;> simp

theorem ldi (dr : Reg) (off : BitVec 9) : Statement (.ldi dr off) := by
  simp only [Statement, Instr.row, EncodingRow.matchesWord, encode, beq_iff_eq]
  ext k hk
  simp only [place, BitVec.getElem_and, BitVec.getElem_or, BitVec.getElem_shiftLeft, BitVec.getElem_setWidth]
  interval_cases k <;> simp

theorem sti (sr : Reg) (off : BitVec 9) : Statement (.sti sr off) := by
  simp only [Statement, Instr.row, EncodingRow.matchesWord, encode, beq_iff_eq]
  ext k hk
  simp only [place, BitVec.getElem_and, BitVec.getElem_or, BitVec.getElem_shiftLeft, BitVec.getElem_setWidth]
  interval_cases k <;> simp

theorem jmp (ignoredHi : BitVec 3) (baseR : Reg) (ignoredLo : BitVec 6) : Statement (.jmp ignoredHi baseR ignoredLo) := by
  simp only [Statement, Instr.row, EncodingRow.matchesWord, encode, beq_iff_eq]
  ext k hk
  simp only [place, BitVec.getElem_and, BitVec.getElem_or, BitVec.getElem_shiftLeft, BitVec.getElem_setWidth]
  interval_cases k <;> simp

theorem reserved (ignored : BitVec 12) : Statement (.reserved ignored) := by
  simp only [Statement, Instr.row, EncodingRow.matchesWord, encode, beq_iff_eq]
  ext k hk
  simp only [place, BitVec.getElem_and, BitVec.getElem_or, BitVec.getElem_shiftLeft, BitVec.getElem_setWidth]
  interval_cases k <;> simp

theorem lea (dr : Reg) (off : BitVec 9) : Statement (.lea dr off) := by
  simp only [Statement, Instr.row, EncodingRow.matchesWord, encode, beq_iff_eq]
  ext k hk
  simp only [place, BitVec.getElem_and, BitVec.getElem_or, BitVec.getElem_shiftLeft, BitVec.getElem_setWidth]
  interval_cases k <;> simp

theorem trap (ignored : BitVec 4) (trapvect8 : BitVec 8) : Statement (.trap ignored trapvect8) := by
  simp only [Statement, Instr.row, EncodingRow.matchesWord, encode, beq_iff_eq]
  ext k hk
  simp only [place, BitVec.getElem_and, BitVec.getElem_or, BitVec.getElem_shiftLeft, BitVec.getElem_setWidth]
  interval_cases k <;> simp

end Sys2Proof.Laws.EncodesInItsRow
end

