-- ==== Sys2Proof/Laws/Strings.lean ====
section
/-! SUPPORT. The bounded loop of PUTS and PUTSP is the spec's unbounded one: it returns exactly where that returns, and its bound is
reached only where that never returns (93_implementation_defined.md U14). -/

namespace Sys2Proof.Machine

variable {bytes : Word → List Byte}

/-! ## Fuel -/

theorem State.stringLoop_succ (n : Nat) (a : Word) (s : State) :
    State.stringLoop bytes (n + 1) a s = if (s.memRead a).1 = 0x0000#16 then some (s.memRead a).2
      else State.stringLoop bytes n (a + 1#16) ((s.memRead a).2.putBytes (bytes (s.memRead a).1)) := rfl

theorem State.stringLoop_add {n : Nat} {a : Word} {s t : State} (k : Nat)
    (h : State.stringLoop bytes n a s = some t) : State.stringLoop bytes (n + k) a s = some t := by
  induction n generalizing a s with
  | zero => simp [State.stringLoop] at h
  | succ n ih =>
    rw [Nat.succ_add]
    simp only [State.stringLoop] at h ⊢
    split
    · simpa [*] using h
    · simp only [*, if_false] at h
      exact ih h

theorem State.stringLoop_mono {m n : Nat} {a : Word} {s t : State} (hmn : m ≤ n)
    (h : State.stringLoop bytes m a s = some t) : State.stringLoop bytes n a s = some t := by
  obtain ⟨k, rfl⟩ := Nat.exists_eq_add_of_le hmn
  exact State.stringLoop_add k h

/-- The loop ends in one state only. -/
theorem State.stringLoop_unique {m n : Nat} {a : Word} {s t u : State}
    (h : State.stringLoop bytes m a s = some t) (h' : State.stringLoop bytes n a s = some u) : t = u := by
  have h1 := State.stringLoop_mono (Nat.le_max_left m n) h
  have h2 := State.stringLoop_mono (Nat.le_max_right m n) h'
  exact Option.some.inj (h1.symm.trans h2)

/-- What the bounded loop returns is a run of the unbounded one. -/
theorem State.run_of_stringLoop {n : Nat} {a : Word} {s t : State}
    (h : State.stringLoop bytes n a s = some t) : StringRun bytes a s t := by
  induction n generalizing a s with
  | zero => simp [State.stringLoop] at h
  | succ n ih =>
    simp only [State.stringLoop] at h
    split at h
    · next hz => cases h; exact .stop hz
    · next hz => exact .emit hz (ih h)

/-- Every run of the unbounded loop is found with some bound. -/
theorem State.exists_stringLoop {a : Word} {s t : State} (h : StringRun bytes a s t) :
    ∃ n, State.stringLoop bytes n a s = some t := by
  induction h with
  | stop hz => exact ⟨1, by simp [State.stringLoop, hz]⟩
  | emit hz _ ih =>
    obtain ⟨n, hn⟩ := ih
    exact ⟨n + 1, by simpa [State.stringLoop, hz] using hn⟩

/-! ## When the agent's answers are used up: laps over a memory that no longer changes -/

/-- Every read from `s` gives the words of `f`, and leaves such a state again. -/
def State.Steady (f : Word → Word) (s : State) : Prop :=
  s.input.answers = [] ∧ s.input.thereafter.isSome = true ∧ (∀ a, s.mem.read a = f a) ∧
    ∀ a, s.pollKeyboard.mem.read a = f a

theorem State.Steady.memRead {f : Word → Word} {s : State} (h : s.Steady f) (a : Word) :
    (s.memRead a).1 = f a ∧ (s.memRead a).2.Steady f := by
  obtain ⟨hans, hthen, hmem, hpoll⟩ := h
  by_cases ha : a = kbsr
  · subst ha
    have hdraw : s.input.draw = (s.input.thereafter, s.input) := by
      obtain ⟨_, _, _, _, _, _, _, ⟨ans, th⟩, _⟩ := s
      simp only at hans
      subst hans
      rfl
    have hin : s.pollKeyboard.input = s.input := by
      rw [s.pollKeyboard_frame, hdraw]
    simp only [State.memRead, if_true]
    refine ⟨hpoll kbsr, ?_, ?_, hpoll, fun b => ?_⟩
    · rw [hin]; exact hans
    · rw [hin]; exact hthen
    · obtain ⟨c, hc⟩ := Option.isSome_iff_exists.mp hthen
      rw [← hpoll b, State.pollKeyboard_read, hin, hdraw, State.pollKeyboard_read s b, hdraw]
      simp only [hc, Option.isSome_some, if_true]
      split_ifs <;> rfl
  · rw [s.memRead_plain ha]
    exact ⟨hmem a, hans, hthen, hmem, hpoll⟩

theorem State.Steady.putBytes {f : Word → Word} {s : State} (h : s.Steady f) (bs : List Byte) :
    (s.putBytes bs).Steady f := by
  obtain ⟨hans, hthen, hmem, hpoll⟩ := h
  refine ⟨hans, hthen, hmem, fun a => ?_⟩
  rw [State.pollKeyboard_read]
  rw [← hpoll a, State.pollKeyboard_read]
  rfl

/-- A steady loop that returns has met a zero word. -/
theorem State.Steady.exists_zero {f : Word → Word} {n : Nat} {a : Word} {s t : State} (hs : s.Steady f)
    (h : State.stringLoop bytes n a s = some t) : ∃ i, f (a + BitVec.ofNat 16 i) = 0x0000#16 := by
  induction n generalizing a s with
  | zero => simp [State.stringLoop] at h
  | succ n ih =>
    obtain ⟨h1, h2⟩ := hs.memRead a
    simp only [State.stringLoop] at h
    split at h
    · next hz => exact ⟨0, by rw [h1] at hz; simpa using hz⟩
    · obtain ⟨i, hi⟩ := ih (h2.putBytes _) h
      refine ⟨i + 1, ?_⟩
      rw [← hi, BitVec.add_assoc, BitVec.add_comm 1#16, ← BitVec.ofNat_add]

/-- A steady loop with a zero word ahead returns. -/
theorem State.Steady.returns {f : Word → Word} {i : Nat} {a : Word} {s : State} (hs : s.Steady f)
    (hz : f (a + BitVec.ofNat 16 i) = 0x0000#16) : ∃ t, State.stringLoop bytes (i + 1) a s = some t := by
  induction i generalizing a s with
  | zero =>
    refine ⟨(s.memRead a).2, ?_⟩
    have : (s.memRead a).1 = 0x0000#16 := by rw [(hs.memRead a).1]; simpa using hz
    simp [State.stringLoop, this]
  | succ i ih =>
    by_cases h0 : (s.memRead a).1 = 0x0000#16
    · exact ⟨(s.memRead a).2, by simp [State.stringLoop, h0]⟩
    · have hz' : f (a + 1#16 + BitVec.ofNat 16 i) = 0x0000#16 := by
        rw [← hz, BitVec.add_assoc, BitVec.add_comm 1#16, ← BitVec.ofNat_add]
      obtain ⟨t, ht⟩ := ih ((hs.memRead a).2.putBytes _) hz'
      exact ⟨t, by rw [State.stringLoop]; simpa [h0] using ht⟩

/-- One lap decides a steady loop. -/
theorem State.Steady.lap {f : Word → Word} {n : Nat} {a : Word} {s t : State} (hs : s.Steady f)
    (h : State.stringLoop bytes n a s = some t) : State.stringLoop bytes 0x10000 a s = some t := by
  obtain ⟨i, hi⟩ := hs.exists_zero h
  have hz : f (a + BitVec.ofNat 16 (i % 0x10000)) = 0x0000#16 := by
    rw [← hi, show BitVec.ofNat 16 (i % 0x10000) = BitVec.ofNat 16 i from BitVec.eq_of_toNat_eq (by simp)]
  obtain ⟨u, hu⟩ := hs.returns (bytes := bytes) hz
  have hu := State.stringLoop_mono (n := 0x10000) (by omega) hu
  rwa [State.stringLoop_unique h hu]

/-! ## The bound -/

/-- The number of reads from `a` up to KBSR. -/
def readsToKbsr (a : Word) : Nat := (kbsr - a).toNat

theorem readsToKbsr_succ {a : Word} (h : a ≠ kbsr) : readsToKbsr (a + 1#16) + 1 = readsToKbsr a := by
  unfold readsToKbsr kbsr at *
  bv_omega

/-- A loop that returns does so before it has passed KBSR once for each answer left, and two laps more. -/
theorem State.stringLoop_bound {n : Nat} {a : Word} {s t : State} (h : State.stringLoop bytes n a s = some t) :
    State.stringLoop bytes (readsToKbsr a + 0x10000 * s.input.answers.length + 0x10000 + 1) a s = some t := by
  induction n generalizing a s with
  | zero => simp [State.stringLoop] at h
  | succ n ih =>
    rw [State.stringLoop_succ] at h ⊢
    split at h
    · next hz => rwa [if_pos hz]
    · next hz =>
      rw [if_neg hz]
      by_cases ha : a = kbsr
      · subst ha
        have hlap : readsToKbsr (kbsr + 1#16) = 0xFFFF := by decide
        have h0 : readsToKbsr kbsr = 0 := by decide
        obtain ⟨regs, pc, cond, mem, running, fault, hold, ⟨answers, thereafter⟩, output⟩ := s
        cases answers with
        | cons answer rest =>
          have hin : ∀ q : State, q.pollKeyboard.input = q.input.draw.2 := fun q => by
            conv_lhs => rw [q.pollKeyboard_frame]
          refine State.stringLoop_mono ?_ (ih h)
          simp [State.memRead_kbsr, hin, InputAgent.draw, hlap, h0]
          omega
        | nil =>
          refine State.stringLoop_mono (m := 0x10000) (by simp [h0]) ?_
          refine State.Steady.lap (f := fun b => (State.pollKeyboard
            ⟨regs, pc, cond, mem, running, fault, hold, ⟨[], thereafter⟩, output⟩).mem.read b) ?_ h
          apply State.Steady.putBytes
          cases thereafter with
          | none => simp [State.memRead_kbsr, InputAgent.draw] at hz
          | some c =>
            rw [State.memRead_kbsr]
            refine ⟨?_, ?_, fun _ => rfl, fun b => ?_⟩
            · rw [State.pollKeyboard_frame]; rfl
            · rw [State.pollKeyboard_frame]; rfl
            · have hd : ∀ q : State, q.pollKeyboard.input = q.input.draw.2 := fun q => by
                conv_lhs => rw [q.pollKeyboard_frame]
              simp only [State.pollKeyboard_read, hd, InputAgent.draw, Option.isSome_some, if_true]
              split_ifs <;> rfl
      · refine State.stringLoop_mono ?_ (ih h)
        have := readsToKbsr_succ ha
        simp only [State.memRead_plain s ha, State.putBytes_input]
        omega

/-- The bound of `stringFuel` is enough: a run of the spec's loop is what the bounded loop returns. -/
theorem State.stringLoop_of_run {a : Word} {s t : State} (h : StringRun bytes a s t) :
    State.stringLoop bytes s.stringFuel a s = some t := by
  obtain ⟨n, hn⟩ := State.exists_stringLoop h
  refine State.stringLoop_mono ?_ (State.stringLoop_bound hn)
  have : readsToKbsr a < 0x10000 := (kbsr - a).isLt
  unfold State.stringFuel
  omega

end Sys2Proof.Machine
end

