-- ==== Sys2Proof/Laws/Step.lean ====
section
/-! SUPPORT. What a step can do: the phases, the step of each, and the outcomes of an instruction. -/

namespace Sys2Proof.Machine

/-! ## Phases -/

theorem State.phase_fetching {s : State} : s.phase = .fetching ↔ s.fault = none ∧ s.running = true ∧ s.hold = none := by
  unfold State.phase
  split <;> simp_all

theorem State.phase_waiting {s : State} {h : Hold} :
    s.phase = .waiting h ↔ s.fault = none ∧ s.running = true ∧ s.hold = some h := by
  unfold State.phase
  split <;> simp_all

theorem State.phase_final {s : State} : (∃ why, s.phase = .final why) ↔ s.Final := by
  unfold State.phase State.Final
  split <;> simp_all [State.Halted, State.Faulted]

/-! ## Steps -/

/-- Where the loop fetches, a step is the decoded instruction at the state after the fetch. -/
theorem step_fetching {s : State} (h : s.phase = .fetching) : step s = exec (decode s.fetch.1) s.fetch.2 := by
  simp [step, h]

theorem step_waiting {s : State} {h : Hold} (hp : s.phase = .waiting h) : step s = .next (s.awaitChar h) := by
  simp [step, hp]

/-- A step that goes on is a request for a character, or the decoded instruction. -/
theorem step_cases {s t : State} (h : step s = .next t) :
    (∃ hold, s.phase = .waiting hold ∧ t = s.awaitChar hold) ∨
    (s.phase = .fetching ∧ exec (decode s.fetch.1) s.fetch.2 = .next t) := by
  unfold step at h
  split at h
  · cases h
  · next hold hp => cases h; exact .inl ⟨hold, hp, rfl⟩
  · next hp => exact .inr ⟨hp, h⟩

/-! ## Outcomes of an instruction -/

theorem outcomeOfString_next {o : Option State} {t : State} : outcomeOfString o = .next t ↔ o = some t := by
  cases o <;> simp [outcomeOfString]

/-- The vectors that select a routine are the legal ones (30_encoding.md R96). -/
theorem routineOf_isSome (v : BitVec 8) : (routineOf v).isSome = knownVector v := by
  revert v; decide

/-- No instruction is refused. -/
theorem exec_not_refused (i : Instr) (s : State) (r : Refusal) : exec i s ≠ .refused r := by
  cases i <;> try (intro h; cases h)
  case trap ignored v =>
    show execTrap ignored v s ≠ .refused r
    unfold execTrap outcomeOfString
    split <;> try (intro h; cases h)
    all_goals split <;> (intro h; cases h)

/-- An instruction that stops the machine in its own step is a PUTS or PUTSP that never returns. -/
theorem exec_fault {i : Instr} {s : State} {f : Fault} (h : exec i s = .fault f) :
    f = .routineNeverReturns ∧ ∃ ignored v, i = .trap ignored v ∧
      ((routineOf v = some .puts ∧ s.link.puts = none) ∨ (routineOf v = some .putsp ∧ s.link.putsp = none)) := by
  cases i <;> try cases h
  case trap ignored v =>
    change execTrap ignored v s = .fault f at h
    unfold execTrap at h
    split at h <;> try cases h
    all_goals
      next hr =>
        unfold outcomeOfString at h
        split at h
        · cases h
        · next hn => cases h; simp [hr, hn]

end Sys2Proof.Machine
end

