-- ==== Sys2Proof/Laws/Trap.lean ====
section
/-! SUPPORT. What TRAP, its string loop and its requests for a character can do, said once. -/

namespace Sys2Proof.Machine

/-- The states TRAP can answer, by vector (43_trap_system.md R180). -/
theorem execTrap_cases {ignored : BitVec 4} {v : BitVec 8} {s t : State} (h : execTrap ignored v s = .next t) :
    (v = 0x20#8 ∧ t = s.link.getc) ∨ (v = 0x21#8 ∧ t = s.link.out) ∨ (v = 0x22#8 ∧ s.link.puts = some t) ∨
    (v = 0x23#8 ∧ t = s.link.inEcho) ∨ (v = 0x24#8 ∧ s.link.putsp = some t) ∨ (v = 0x25#8 ∧ t = s.link.halt) ∨
    (routineOf v = none ∧ t = s.link.raise .badTrapVector (encode (.trap ignored v))) := by
  have hv : ∀ r, routineOf v = some r → v = match r with
      | .getc => 0x20#8 | .out => 0x21#8 | .puts => 0x22#8 | .inEcho => 0x23#8 | .putsp => 0x24#8 | .halt => 0x25#8 := by
    intro r hr
    unfold routineOf at hr
    split_ifs at hr <;> cases hr <;> assumption
  unfold execTrap at h
  split at h <;> rename_i hr
  · exact .inl ⟨hv _ hr, by cases h; rfl⟩
  · exact .inr (.inl ⟨hv _ hr, by cases h; rfl⟩)
  · exact .inr (.inr (.inl ⟨hv _ hr, outcomeOfString_next.mp h⟩))
  · exact .inr (.inr (.inr (.inl ⟨hv _ hr, by cases h; rfl⟩)))
  · exact .inr (.inr (.inr (.inr (.inl ⟨hv _ hr, outcomeOfString_next.mp h⟩))))
  · exact .inr (.inr (.inr (.inr (.inr (.inl ⟨hv _ hr, by cases h; rfl⟩)))))
  · exact .inr (.inr (.inr (.inr (.inr (.inr ⟨hr, by cases h; rfl⟩)))))

/-- A read moves the input agent on by one answer at KBSR, by none elsewhere. -/
theorem State.memRead_input (s : State) (a : Word) :
    (s.memRead a).2.input = if a = kbsr then s.input.draw.2 else s.input := by
  by_cases h : a = kbsr
  · subst h
    rw [s.memRead_kbsr, if_pos rfl]
    show s.pollKeyboard.input = _
    rw [s.pollKeyboard_frame]
  · rw [s.memRead_plain h, if_neg h]

/-- What a string loop changes: output grows, polls move the agent and rewrite KBSR and KBDR, and nothing else. -/
theorem StringRun.frame {bytes : Word → List Byte} {a : Word} {s t : State} (h : StringRun bytes a s t) :
    (∀ r, t.reg r = s.reg r) ∧ t.pc = s.pc ∧ t.cond = s.cond ∧ t.running = s.running ∧ t.fault = s.fault ∧ t.hold = s.hold ∧
    s.output <+: t.output ∧ (∀ b, b ≠ kbsr → b ≠ kbdr → t.mem.read b = s.mem.read b) ∧ (s.mem.wf → t.mem.wf) ∧
    ∃ n : Nat, t.input = (fun agent : InputAgent => agent.draw.2)^[n] s.input := by
  have hin : ∀ (s : State) a, ∃ n : Nat, (s.memRead a).2.input = (fun agent : InputAgent => agent.draw.2)^[n] s.input := by
    intro s a
    rw [s.memRead_input]
    split
    · exact ⟨1, rfl⟩
    · exact ⟨0, rfl⟩
  induction h with
  | @stop a s hz =>
    exact ⟨by simp, by simp, by simp, by simp, by simp, by simp, by simp, fun b h1 h2 => s.memRead_read h1 h2,
      s.memRead_wf a, hin s a⟩
  | @emit a s t hz _ ih =>
    obtain ⟨i1, i2, i3, i4, i5, i6, i7, i8, i9, n, i10⟩ := ih
    obtain ⟨m, hm⟩ := hin s a
    refine ⟨by simpa using i1, by simpa using i2, by simpa using i3, by simpa using i4, by simpa using i5, by simpa using i6,
      .trans (by simp) i7, fun b h1 h2 => ?_, fun hw => i9 (by simpa using s.memRead_wf a hw), n + m, ?_⟩
    · rw [i8 b h1 h2]
      simpa using s.memRead_read h1 h2
    · rw [i10, Function.iterate_add_apply, ← hm]
      rfl

/-- What a request for a character changes: the agent moves on; R0, COND, the hold and the output may change, and nothing else. -/
theorem State.awaitChar_frame (s : State) (h : Hold) :
    (∀ r, r ≠ 0#3 → (s.awaitChar h).reg r = s.reg r) ∧ (s.awaitChar h).pc = s.pc ∧ (s.awaitChar h).running = s.running ∧
    (s.awaitChar h).fault = s.fault ∧ (s.awaitChar h).mem = s.mem ∧ (s.awaitChar h).input = s.input.draw.2 ∧
    s.output <+: (s.awaitChar h).output := by
  rcases s.awaitChar_cases h with ⟨c, -, he⟩ | ⟨-, he⟩ <;> rw [he]
  · cases h
    · exact ⟨fun r hr => State.reg_writeResult_ne _ _ hr, rfl, rfl, rfl, rfl, rfl, List.prefix_rfl⟩
    · exact ⟨fun r hr => State.reg_writeResult_ne _ _ hr, rfl, rfl, rfl, rfl, rfl, List.prefix_append _ _⟩
  · exact ⟨fun _ _ => rfl, rfl, rfl, rfl, rfl, rfl, List.prefix_rfl⟩

/-! ## How far the input stream moves, and when a string reads KBSR -/

/-- Requests drop answers from the front, and the last answer stays. -/
theorem InputAgent.draw_iterate (n : Nat) (agent : InputAgent) :
    (fun agent : InputAgent => agent.draw.2)^[n] agent = ⟨agent.answers.drop n, agent.thereafter⟩ := by
  induction n generalizing agent with
  | zero => rfl
  | succ n ih =>
    rw [Function.iterate_succ_apply, ih]
    obtain ⟨_ | ⟨_, _⟩, _⟩ := agent <;> simp [InputAgent.draw]

/-- The words from `a` up to KBSR hold no 0x0000. -/
def State.NoZeroBeforeKbsr (s : State) (a : Word) : Prop :=
  ∀ k, k < readsToKbsr a → s.mem.read (a + BitVec.ofNat 16 k) ≠ 0x0000#16

theorem State.noZeroBeforeKbsr_kbsr (s : State) : s.NoZeroBeforeKbsr kbsr := fun k hk => by
  rw [show readsToKbsr kbsr = 0 by decide] at hk
  omega

theorem State.noZeroBeforeKbsr_step (s : State) {a : Word} (h : a ≠ kbsr) :
    s.NoZeroBeforeKbsr a ↔ s.mem.read a ≠ 0x0000#16 ∧ s.NoZeroBeforeKbsr (a + 1#16) := by
  have hs : ∀ k, a + 1#16 + BitVec.ofNat 16 k = a + BitVec.ofNat 16 (k + 1) := fun k => by
    rw [Nat.add_comm, BitVec.ofNat_add, ← BitVec.add_assoc]
  have hr := readsToKbsr_succ h
  refine ⟨fun hz => ⟨by simpa using hz 0 (by omega), fun k hk => ?_⟩, fun ⟨h0, hz⟩ k hk => ?_⟩
  · rw [hs]
    exact hz (k + 1) (by omega)
  · cases k with
    | zero => simpa using h0
    | succ k =>
      rw [← hs]
      exact hz k (by omega)

/-- A string with no 0x0000 word before KBSR polls: it takes at least one answer. -/
theorem StringRun.polls {bytes : Word → List Byte} {a : Word} {s t : State} (h : StringRun bytes a s t)
    (hz : s.NoZeroBeforeKbsr a) : ∃ n : Nat, 1 ≤ n ∧ t.input = (fun agent : InputAgent => agent.draw.2)^[n] s.input := by
  induction h with
  | @stop a s h0 =>
    by_cases ha : a = kbsr
    · exact ⟨1, le_refl 1, by rw [s.memRead_input, if_pos ha]; rfl⟩
    · rw [s.memRead_plain ha] at h0
      exact absurd h0 ((s.noZeroBeforeKbsr_step ha).mp hz).1
  | @emit a s t _ hrun ih =>
    by_cases ha : a = kbsr
    · obtain ⟨n, hn⟩ := hrun.frame.2.2.2.2.2.2.2.2.2
      refine ⟨n + 1, by omega, ?_⟩
      rw [hn, Function.iterate_succ_apply, State.putBytes_input, s.memRead_input, if_pos ha]
    · rw [s.memRead_plain ha] at ih
      exact ih ((s.noZeroBeforeKbsr_step ha).mp hz).2

/-- A string that ends before KBSR polls nothing: only the output has grown. -/
theorem StringRun.plain {bytes : Word → List Byte} {a : Word} {s t : State} (h : StringRun bytes a s t)
    (hz : ¬ s.NoZeroBeforeKbsr a) : t.input = s.input ∧ t.mem = s.mem := by
  induction h with
  | @stop a s _ =>
    have ha : a ≠ kbsr := fun e => hz (e ▸ s.noZeroBeforeKbsr_kbsr)
    rw [s.memRead_plain ha]
    exact ⟨rfl, rfl⟩
  | @emit a s t h0 _ ih =>
    have ha : a ≠ kbsr := fun e => hz (e ▸ s.noZeroBeforeKbsr_kbsr)
    rw [s.memRead_plain ha] at h0 ih
    exact ih fun hz' => hz ((s.noZeroBeforeKbsr_step ha).mpr ⟨h0, hz'⟩)

end Sys2Proof.Machine
end

