-- ==== Sys2Proof/Tests/Slice0.lean ====
section
/-! SUPPORT. Tests: the legality check, words written out from the format tables, one-step vectors of spec/95_test_vectors.md (named by
their id there), and for each statement with hypotheses a witness that they can be met together. -/

namespace Sys2Proof.Tests

open Sys2Proof Sys2Proof.Machine Sys2Proof.Spec

/-! ## Helpers -/

/-- The machine at reset, but for a PC, some registers, COND, some words of memory, and the answers of the input agent. -/
def start (pc : Word) (regs : List (Reg × Word)) (cond : Cond) (words : List (Word × Word)) (answers : List (Option Byte)) : State :=
  let s := { State.reset with pc := pc, cond := cond, input := { answers := answers, thereafter := none } }
  let s := regs.foldl (fun s r => s.setReg r.1 r.2) s
  words.foldl (fun s w => s.memWrite w.1 w.2) s

/-- The outcome is a next state of which `check` holds. -/
def onNext (o : Host.Outcome State Fault Refusal) (check : State → Bool) : Bool :=
  match o with
  | .next t => check t
  | .fault _ => false
  | .refused _ => false

/-- The outcome is this stop. -/
def stopsWith (o : Host.Outcome State Fault Refusal) (f : Fault) : Bool :=
  match o with
  | .next _ => false
  | .fault g => g == f
  | .refused _ => false

/-- DR, COND and PC after a step. -/
def left (t : State) (r : Reg) (v : Word) (c : Cond) (pc : Word) : Bool := t.reg r == v && t.cond == c && t.pc == pc

/-! ## Legality (30_encoding.md R96) -/

theorem test_wellFormed_refuses_rti : (Instr.rti 0).wellFormed = false ∧ (Instr.rti 0xFFF).wellFormed = false := by decide
theorem test_wellFormed_refuses_reserved : (Instr.reserved 0).wellFormed = false ∧ (Instr.reserved 0x123).wellFormed = false := by
  decide
theorem test_wellFormed_refuses_low_vector : (Instr.trap 0 0x1F).wellFormed = false ∧ (Instr.trap 0 0x00).wellFormed = false := by
  decide
theorem test_wellFormed_refuses_high_vector : (Instr.trap 0 0x26).wellFormed = false ∧ (Instr.trap 0xF 0xFF).wellFormed = false := by
  decide
theorem test_wellFormed_accepts : (Instr.trap 0 0x20).wellFormed = true ∧ (Instr.trap 0xF 0x25).wellFormed = true ∧
    (Instr.br false false false 0).wellFormed = true ∧ (Instr.jsrr 3 7 0x3F).wellFormed = true := by decide

/-! ## Words written out from the format tables of 30_encoding.md R84-R92 -/

theorem test_decode_br : decode 0b0000010000000010 = .br false true false 2 ∧ decode 0b0000100111111111 = .br true false false 0x1FF ∧
    decode 0b0000001000000000 = .br false false true 0 := by decide
theorem test_decode_add : decode 0b0001001010000011 = .addReg 1 2 0 3 ∧ decode 0b0001001010011011 = .addReg 1 2 3 3 ∧
    decode 0b0001000001100010 = .addImm 0 1 2 := by decide
theorem test_decode_and : decode 0b0101001010000011 = .andReg 1 2 0 3 ∧ decode 0b0101101100101111 = .andImm 5 4 15 := by decide
theorem test_decode_not : decode 0b1001000001111111 = .not 0 1 0x3F := by decide
theorem test_decode_jsr : decode 0b0100100000000101 = .jsr 5 ∧ decode 0b0100111111111110 = .jsr 0x7FE := by decide
theorem test_decode_jsrr : decode 0b0100000010000000 = .jsrr 0 2 0 ∧ decode 0b0100011111000001 = .jsrr 3 7 1 := by decide
theorem test_decode_jmp : decode 0b1100000011000000 = .jmp 0 3 0 ∧ decode 0b1100111011111111 = .jmp 7 3 0x3F := by decide
theorem test_decode_pc_relative : decode 0b0010000000000100 = .ld 0 4 ∧ decode 0b1010000000000001 = .ldi 0 1 ∧
    decode 0b1110001000000111 = .lea 1 7 ∧ decode 0b0011100000000001 = .st 4 1 ∧ decode 0b1011000000000010 = .sti 0 2 := by decide
theorem test_decode_base_offset : decode 0b0110010001000000 = .ldr 2 1 0 ∧ decode 0b0111010001000001 = .str 2 1 1 := by decide
theorem test_decode_trap : decode 0b1111000000100001 = .trap 0 0x21 ∧ decode 0b1111111100100101 = .trap 0xF 0x25 := by decide
theorem test_decode_illegal : decode 0b1000111111111111 = .rti 0xFFF ∧ decode 0b1101000100100011 = .reserved 0x123 := by decide
theorem test_encode_words : encode (.addReg 1 2 0 3) = 0x1283 ∧ encode (.br false true false 2) = 0x0402 ∧
    encode (.jsrr 0 7 0) = 0x41C0 ∧ encode (.str 2 1 1) = 0x7441 ∧ encode (.trap 0 0x25) = 0xF025 := by decide
theorem test_decodeTableWord : decodeTableWord 16 0x1283 = some (.addReg 1 2 0 3) ∧ decodeTableWord 16 0xF025 = some (.trap 0 0x25) ∧
    decodeTableWord 0 0 = none ∧ decodeTableWord 32 0x1283 = none := by decide
theorem test_withFetchWord : onNext (step (State.reset.withFetchWord 16 0x1025)) (fun t => left t 0 5 .pos 0x3001) = true := by decide

/-! ## Operate (95_test_vectors.md 2.1) -/

theorem test_OP_2_add_wraps_negative : onNext (step (start 0x3000 [(1, 0x7FFF), (2, 0x0001)] .zro [(0x3000, 0x1042)] []))
    (fun t => left t 0 0x8000 .neg 0x3001) = true := by decide
theorem test_OP_5_add_ignored_bits : onNext (step (start 0x3000 [(2, 3), (3, 4)] .zro [(0x3000, 0x129B)] []))
    (fun t => left t 1 7 .pos 0x3001 && t.reg 2 == 3) = true := by decide
theorem test_OP_6_add_immediate_minus_16 : onNext (step (start 0x3000 [(0, 0x0010)] .pos [(0x3000, 0x1030)] []))
    (fun t => left t 0 0 .zro 0x3001) = true := by decide
theorem test_OP_8_add_immediate_wraps : onNext (step (start 0x3000 [(1, 0x8000)] .zro [(0x3000, 0x127F)] []))
    (fun t => left t 1 0x7FFF .pos 0x3001) = true := by decide
theorem test_EX_4_and_register : onNext (step (start 0x3000 [(2, 0xFF0F), (3, 0x0FF0)] .zro [(0x3000, 0x5283)] []))
    (fun t => left t 1 0x0F00 .pos 0x3001) = true := by decide
theorem test_OP_15_and_immediate_sign_extends : onNext (step (start 0x3000 [(1, 0xBEEF)] .zro [(0x3000, 0x507F)] []))
    (fun t => left t 0 0xBEEF .neg 0x3001) = true := by decide
theorem test_OP_17_and_immediate_masks : onNext (step (start 0x3000 [(4, 0x1234)] .zro [(0x3000, 0x5B2F)] []))
    (fun t => left t 5 0x0004 .pos 0x3001) = true := by decide
theorem test_EX_5_not : onNext (step (start 0x3000 [] .zro [(0x3000, 0x907F)] [])) (fun t => left t 0 0xFFFF .neg 0x3001) = true := by
  decide
theorem test_OP_21_not_ignored_bits : onNext (step (start 0x3000 [(1, 0x00FF)] .zro [(0x3000, 0x9040)] []))
    (fun t => left t 0 0xFF00 .neg 0x3001) = true := by decide

/-! ## Control transfer (95_test_vectors.md 2.2) -/

theorem test_CT_1_br_taken : onNext (step (start 0x3000 [] .zro [(0x3000, 0x0402)] [])) (fun t => left t 0 0 .zro 0x3003) = true := by
  decide
theorem test_CT_8_br_wraps : onNext (step (start 0xFFFF [] .neg [(0xFFFF, 0x0FFF)] [])) (fun t => left t 0 0 .neg 0xFFFF) = true := by
  decide
theorem test_CT_9_jsrr_r7 : onNext (step (start 0x3000 [(7, 0x1234)] .zro [(0x3000, 0x41C0)] []))
    (fun t => left t 7 0x3001 .zro 0x3001) = true := by decide
theorem test_CT_11_jsrr_ignored_bits : onNext (step (start 0x3000 [(2, 0x5000)] .zro [(0x3000, 0x4680)] []))
    (fun t => left t 7 0x3001 .zro 0x5000) = true := by decide
theorem test_CT_12_jsr : onNext (step (start 0x3001 [] .neg [(0x3001, 0x4805)] [])) (fun t => left t 7 0x3002 .neg 0x3007) = true := by
  decide
theorem test_CT_13_jsr_backwards : onNext (step (start 0x3000 [] .zro [(0x3000, 0x4C00)] []))
    (fun t => left t 7 0x3001 .zro 0x2C01) = true := by decide
theorem test_CT_19_jmp : onNext (step (start 0x3000 [(3, 0x4000)] .pos [(0x3000, 0xCEFF)] []))
    (fun t => left t 7 0 .pos 0x4000) = true := by decide

/-! ## Loads, LEA, stores (95_test_vectors.md 2.3, 2.6) -/

theorem test_LS_2_ld : onNext (step (start 0x3000 [] .zro [(0x3000, 0x2004), (0x3005, 0x8000)] []))
    (fun t => left t 0 0x8000 .neg 0x3001) = true := by decide
theorem test_LS_4_ld_wraps : onNext (step (start 0x0000 [] .zro [(0x0000, 0x2100), (0xFF01, 0x1111)] []))
    (fun t => left t 0 0x1111 .pos 0x0001) = true := by decide
theorem test_EX_8_ldi : onNext (step (start 0x3000 [] .zro [(0x3000, 0xA001), (0x3002, 0x4000), (0x4000, 0x1234)] []))
    (fun t => left t 0 0x1234 .pos 0x3001) = true := by decide
theorem test_MM_2_ldi_polls : onNext (step (start 0x3000 [] .zro [(0x3000, 0xA201), (0x3002, 0xFE00)] [some 0x78]))
    (fun t => left t 1 0x8000 .neg 0x3001 && t.mem.read 0xFE00 == 0x8000 && t.mem.read 0xFE02 == 0x0078 && t.input.answers == [])
    = true := by decide
theorem test_LS_9_ldr_onto_its_base : onNext (step (start 0x3000 [(1, 0x4000)] .pos [(0x3000, 0x6240)] []))
    (fun t => left t 1 0 .zro 0x3001) = true := by decide
theorem test_LS_11_ldr_negative_offset : onNext (step (start 0x3000 [(1, 0x0010)] .zro [(0x3000, 0x6060), (0xFFF0, 0xFFFF)] []))
    (fun t => left t 0 0xFFFF .neg 0x3001) = true := by decide
theorem test_LS_14_lea_wraps : onNext (step (start 0xFFFE [] .zro [(0xFFFE, 0xE005)] []))
    (fun t => left t 0 0x0004 .pos 0xFFFF) = true := by decide
theorem test_LS_15_lea_does_not_poll : onNext (step (start 0xFDFF [] .zro [(0xFDFF, 0xE000)] [some 0x61]))
    (fun t => left t 0 0xFE00 .neg 0xFE00 && t.mem.read 0xFE00 == 0 && t.input.answers == [some 0x61]) = true := by decide
theorem test_LS_16_st : onNext (step (start 0x3006 [(4, 0xFF7B)] .zro [(0x3006, 0x3801)] []))
    (fun t => t.mem.read 0x3008 == 0xFF7B && left t 4 0xFF7B .zro 0x3007) = true := by decide
theorem test_LS_17_sti : onNext (step (start 0x3003 [(0, 0x0042)] .zro [(0x3003, 0xB002), (0x3006, 0x4000)] []))
    (fun t => t.mem.read 0x4000 == 0x0042 && t.mem.read 0x3006 == 0x4000 && t.pc == 0x3004) = true := by decide
theorem test_MM_4_sti_to_kbsr_stores : onNext (step (start 0x3000 [(0, 0x1234)] .zro [(0x3000, 0xB001), (0x3002, 0xFE00)] [some 0x78]))
    (fun t => t.mem.read 0xFE00 == 0x1234 && t.input.answers == [some 0x78]) = true := by decide
theorem test_LS_18_str : onNext (step (start 0x3000 [(1, 0x3008), (2, 0x0084)] .neg [(0x3000, 0x7441)] []))
    (fun t => t.mem.read 0x3009 == 0x0084 && t.cond == .neg && t.pc == 0x3001) = true := by decide
theorem test_LS_19_str_its_base : onNext (step (start 0x3000 [(1, 0x5000)] .zro [(0x3000, 0x727F)] []))
    (fun t => t.mem.read 0x4FFF == 0x5000) = true := by decide
theorem test_MM_9_fetch_from_kbsr_polls : onNext (step (start 0xFE00 [] .zro [] [some 0x78]))
    (fun t => t.mem.read 0xFE02 == 0x0078 && t.pc == 0xFE01 && t.fault == some ⟨.rtiOpcode, 0x8000, 0xFE00⟩) = true := by decide

/-! ## TRAP (95_test_vectors.md 2.4) -/

theorem test_TR_5_getc_zero_extends : onNext (step (start 0x3000 [] .zro [(0x3000, 0xF020)] [some 0xC3]))
    (fun t => left t 0 0x00C3 .pos 0x3001 && t.reg 7 == 0x3001 && t.output == []) = true := by decide
theorem test_TR_6_getc_holds : onNext (step (start 0x3000 [] .zro [(0x3000, 0xF020)] []))
    (fun t => t.hold == some .getc && left t 7 0x3001 .zro 0x3001 && t.running && onNext (step t) (fun u => u == t)) = true := by decide
theorem test_TR_7_in_echoes : onNext (step (start 0x3000 [] .zro [(0x3000, 0xF023)] [some 0x71]))
    (fun t => left t 0 0x0071 .pos 0x3001 && t.reg 7 == 0x3001 && t.output == [0x71]) = true := by decide
theorem test_TR_2_out_low_byte : onNext (step (start 0x3000 [(0, 0x1241)] .zro [(0x3000, 0xF021)] []))
    (fun t => t.output == [0x41] && left t 0 0x1241 .zro 0x3001) = true := by decide
theorem test_TR_9_puts : onNext (step (start 0x3000 [(0, 0x4000)] .zro [(0x3000, 0xF022), (0x4000, 0x0141), (0x4001, 0x0100)] []))
    (fun t => t.output == [0x41, 0x00] && left t 7 0x3001 .zro 0x3001) = true := by decide
theorem test_TR_12_puts_polls : onNext (step (start 0x3000 [(0, 0xFDFF)] .zro [(0x3000, 0xF022), (0xFDFF, 0x0041)] [some 0x7A]))
    (fun t => t.output == [0x41, 0x00] && t.mem.read 0xFE00 == 0x8000 && t.mem.read 0xFE02 == 0x007A && t.input.answers == [])
    = true := by decide
theorem test_TR_13_putsp : onNext (step (start 0x3000 [(0, 0x4000)] .zro [(0x3000, 0xF024), (0x4000, 0x6948), (0x4001, 0x0021)] []))
    (fun t => t.output == [0x48, 0x69, 0x21] && left t 0 0x4000 .zro 0x3001) = true := by decide
theorem test_TR_14_putsp_zero_low_byte : onNext (step (start 0x3000 [(0, 0x4000)] .zro [(0x3000, 0xF024), (0x4000, 0x4100)] []))
    (fun t => t.output == [0x00, 0x41]) = true := by decide
theorem test_TR_16_halt : onNext (step (start 0x3006 [(0, 0x1234)] .neg [(0x3006, 0xFF25)] []))
    (fun t => t.running == false && left t 7 0x3007 .neg 0x3007 && t.reg 0 == 0x1234 && stopsWith (step t) .halted) = true := by decide

/-! ## Faults (95_test_vectors.md 2.5) -/

theorem test_FT_2_rti : onNext (step (start 0x3000 [] .pos [(0x3000, 0x8FFF)] []))
    (fun t => t.fault == some ⟨.rtiOpcode, 0x8FFF, 0x3000⟩ && left t 7 0 .pos 0x3001 && t.running &&
      stopsWith (step t) (.faulted ⟨.rtiOpcode, 0x8FFF, 0x3000⟩)) = true := by decide
theorem test_FT_8_reserved_wraps : onNext (step (start 0xFFFF [] .zro [(0xFFFF, 0xD000)] []))
    (fun t => t.fault == some ⟨.reservedOpcode, 0xD000, 0xFFFF⟩ && t.pc == 0x0000) = true := by decide
theorem test_FT_4_bad_vector : onNext (step (start 0x3000 [(7, 0x1111)] .zro [(0x3000, 0xF026)] []))
    (fun t => t.fault == some ⟨.badTrapVector, 0xF026, 0x3000⟩ && left t 7 0x3001 .zro 0x3001) = true := by decide
theorem test_FT_6_vector_below : onNext (step (start 0x3000 [] .zro [(0x3000, 0xF01F)] []))
    (fun t => t.fault == some ⟨.badTrapVector, 0xF01F, 0x3000⟩) = true := by decide

/-! ## Boot (10_state.md R39-R41, 60_exceptions.md R214) -/

theorem test_FT_9_loader_fails : boot none ⟨[], none⟩ = .startupFault Config.exitStartup := rfl
theorem test_boot_places_words : ((State.reset.load ⟨0xFFFF, [0x1111, 0x2222]⟩).mem) = [(0x0000, 0x2222), (0xFFFF, 0x1111)] := by decide

/-! ## Witnesses: the hypotheses of each statement can be met together

Each is named after its statement; where a statement has clauses, each clause has a case here. -/

theorem witness_EveryWordHasExactlyOneRow :
    ((0x1283 : Word).extractLsb' 12 4 = 0x1 ∧ (0x1042 : Word).extractLsb' 12 4 = 0x1 ∧ (0x1283 : Word)[5] = (0x1042 : Word)[5]) ∧
    ((0x5020 : Word).extractLsb' 12 4 = 0x5 ∧ (0x507F : Word).extractLsb' 12 4 = 0x5 ∧ (0x5020 : Word)[5] = (0x507F : Word)[5]) ∧
    ((0x4805 : Word).extractLsb' 12 4 = 0x4 ∧ (0x4FFE : Word).extractLsb' 12 4 = 0x4 ∧ (0x4805 : Word)[11] = (0x4FFE : Word)[11]) ∧
    (0x2004 : Word).extractLsb' 12 4 = (0x21FF : Word).extractLsb' 12 4 := by decide

theorem witness_IgnoredBitsDoNotMatter :
    [((0x1283 : Word), (0x129B : Word)), (0x5283, 0x529B), (0x907F, 0x9040), (0xC0C0, 0xCEFF), (0x4080, 0x46BF), (0xF025, 0xFF25),
      (0x8000, 0x8FFF), (0xD000, 0xDFFF)].all
      (fun p => p.1 != p.2 && p.1 &&& careMask p.1 == p.2 &&& careMask p.1) = true := by decide

theorem witness_ThreeIllegalClassesFault : State.reset.fault = none ∧
    [(0x8000 : Word), 0x8FFF, 0xD000, 0xDFFF, 0xF01F, 0xF026, 0xF000, 0xF0FF].all
      (fun ir => onNext (exec (decode ir) State.reset) (fun t => t.fault.isSome)) = true ∧
    [(0xF020 : Word), 0xF021, 0xF022, 0xF023, 0xF024, 0xF025, 0x7FFF, 0x9000, 0xCFFF, 0xE000].all
      (fun ir => onNext (exec (decode ir) State.reset) (fun t => t.fault.isNone)) = true := by decide

theorem witness_SignExtensionFormula : 1 ≤ 1 ∧ 1 ≤ 16 ∧ 16 ≤ 16 ∧ (0b1 : BitVec 1).getLsbD (1 - 1) = true ∧
    (0b01111 : BitVec 5).getLsbD (5 - 1) = false ∧ sext (0b1 : BitVec 1) = 0xFFFF ∧ sext (0b01111 : BitVec 5) = 0x000F ∧
    sext (0x100 : BitVec 9) = 0xFF00 ∧ sext (0x400 : BitVec 11) = 0xFC00 := by decide

theorem witness_PlainReadIsPure : (0xFDFF : Word) ≠ 0xFE00 ∧ (0xFE01 : Word) ≠ 0xFE00 ∧ (0xFE02 : Word) ≠ 0xFE00 := by decide

theorem witness_KeyboardStatusReadPolls : (start 0 [] .zro [] [some 0x78]).input.draw.1 = some 0x78 ∧
    (start 0 [] .zro [] [none]).input.draw.1 = none ∧ (0xFE01 : Word) ≠ 0xFE00 ∧ (0xFE01 : Word) ≠ 0xFE02 := by decide

theorem witness_StoresToKeyboardRegisters : (start 0 [] .zro [] [some 0xFF]).input.draw.1 = some 0xFF := by decide

/-- Word 1 of the image is covered by it and placed last at its address; 0x3002 is not covered. -/
theorem witness_BootStateFromImage : (1 < ([0x5020, 0xF025] : List Word).length ∧
    ∀ j, 1 < j → j < ([0x5020, 0xF025] : List Word).length → BitVec.ofNat 16 j ≠ BitVec.ofNat 16 1) ∧
    ∀ k, k < ([0x5020, 0xF025] : List Word).length → (0x3002 : Word) ≠ 0x3000 + BitVec.ofNat 16 k := by
  refine ⟨⟨by decide, fun j h1 h2 => ?_⟩, by decide⟩
  simp only [List.length_cons, List.length_nil] at h2
  omega

theorem witness_ExitStatus : ({ State.reset with running := false } : State).Halted ∧
    ({ State.reset with fault := some ⟨.rtiOpcode, 0x8000, 0x2FFF⟩ } : State).Faulted := by decide

theorem witness_StepRunsTheDecodedInstruction :
    ({ State.reset with running := false } : State).running = false ∧
    ({ State.reset with fault := some ⟨.rtiOpcode, 0x8000, 0x2FFF⟩ } : State).fault ≠ none ∧
    (State.reset.running = true ∧ State.reset.fault = none ∧ State.reset.hold = none) := by decide

theorem witness_OnlyFinalStatesAndHangsStop : ¬ State.reset.Final := by decide

theorem witness_BootMeetsInvariant : ∃ s, boot (some ⟨0x3000, [0x5020, 0xF025]⟩) ⟨[some 0x61], none⟩ = .started s := ⟨_, rfl⟩

/-- A state the invariant holds of, from which a step is taken: ADD R0, R0, #1 stands at PC. -/
theorem witness_StepKeepsInvariant : (start 0x3000 [] .zro [(0x3000, 0x1021)] []).Inv ∧
    ∃ t, step (start 0x3000 [] .zro [(0x3000, 0x1021)] []) = .next t :=
  ⟨{ memCanonical := by decide
     faultRunning := by decide
     faultPc := fun f h => by cases h
     faultCause := fun f h => by cases h
     faultLink := fun f h => by cases h
     haltLink := by decide
     holdLive := by decide }, _, rfl⟩

/-- The invariant's clauses about a fault, a halt and a hold are met by states of their own. -/
theorem witness_Inv_clauses :
    ({ State.reset with pc := 0x3001, fault := some ⟨.rtiOpcode, 0x8000, 0x3000⟩ } : State).Inv ∧
    ({ State.reset with pc := 0x0000, running := false } : State).Inv ∧
    ({ State.reset with pc := 0x0000, hold := some .getc } : State).Inv := by
  refine ⟨⟨by decide, by decide, ?_, ?_, ?_, by decide, by decide⟩,
    ⟨by decide, by decide, fun f h => ?_, fun f h => ?_, fun f h => ?_, by decide, by decide⟩,
    ⟨by decide, by decide, fun f h => ?_, fun f h => ?_, fun f h => ?_, by decide, by decide⟩⟩
  · intro f h; cases h; decide
  · intro f h; cases h; decide
  · intro f h hc; cases h; cases hc
  all_goals cases h

/-- One instruction of each kind has a next state. -/
theorem witness_exec_next : (∃ t, exec (.addImm 0 0 1) State.reset = .next t) ∧ (∃ t, exec (.br true true true 2) State.reset = .next t) ∧
    (∃ t, exec (.ldi 0 1) State.reset = .next t) ∧ (∃ t, exec (.st 0 1) State.reset = .next t) ∧
    (∃ t, exec (.jsrr 0 7 0) State.reset = .next t) ∧ (∃ t, exec (.trap 0 0x21) State.reset = .next t) ∧
    (∃ t, exec (.rti 0) State.reset = .next t) :=
  ⟨⟨_, rfl⟩, ⟨_, rfl⟩, ⟨_, rfl⟩, ⟨_, rfl⟩, ⟨_, rfl⟩, ⟨_, rfl⟩, ⟨_, rfl⟩⟩

theorem witness_OnlyHaltClearsRunning :
    onNext (step (start 0x3000 [] .zro [(0x3000, 0xF025)] [])) (fun t => !t.running) = true ∧
    onNext (step (start 0x3000 [] .zro [(0x3000, 0x1021)] [])) (fun t => t.running) = true := by decide

theorem witness_OnlyListedInstructionsWriteCond : (∃ t, exec (.st 0 1) State.reset = .next t) ∧ ¬ WritesCond (.st 0 1) ∧
    (∃ t, exec (.trap 0 0x21) State.reset = .next t) ∧ ¬ WritesCond (.trap 0 0x21) :=
  ⟨⟨_, rfl⟩, id, ⟨_, rfl⟩, by show ¬ ((0x21 : Byte) = 0x20 ∨ (0x21 : Byte) = 0x23); decide⟩

theorem witness_OnlyBrReadsCond : ∀ n z p off, Instr.addReg 1 2 0 3 ≠ .br n z p off := by
  intro n z p off h
  cases h

theorem witness_OnlyListedRegistersAreWritten : (∃ t, exec (.jsr 5) State.reset = .next t) ∧ (0 : Reg) ∉ writes (.jsr 5) ∧
    (1 : Reg) ∉ writes (.trap 0 0x20) ∧ (0 : Reg) ∉ writes (.trap 0 0x21) := ⟨⟨_, rfl⟩, by decide, by decide, by decide⟩

theorem witness_PcAfterEachInstruction : (∃ t, exec (.br false true false 2) State.reset = .next t) ∧
    taken false true false State.reset.cond ∧ ¬ taken true false true State.reset.cond :=
  ⟨⟨_, rfl⟩, .inr (.inl ⟨rfl, rfl⟩), by rintro (⟨_, h⟩ | ⟨h, _⟩ | ⟨_, h⟩) <;> cases h⟩

/-- A store and a word it does not store to (KBSR itself too, which ST does not read); a load of KBSR and a word that is not KBSR or KBDR;
a load that does not read KBSR, so that KBDR is claimed as well. -/
theorem witness_OnlyStoresAndPollsChangeMemory :
    ((∃ t, exec (.st 0 1) State.reset = .next t) ∧ storesTo (.st 0 1) State.reset = some 0x3001 ∧
      storesTo (.st 0 1) State.reset ≠ some 0xFE00 ∧ ¬ ReadsKbsr (.st 0 1) State.reset) ∧
    ((∃ t, exec (.ldr 0 0 0) (start 0x3001 [(0, 0xFE00)] .zro [] []) = .next t) ∧
      storesTo (.ldr 0 0 0) (start 0x3001 [(0, 0xFE00)] .zro [] []) ≠ some 0xFE01 ∧
      ReadsKbsr (.ldr 0 0 0) (start 0x3001 [(0, 0xFE00)] .zro [] []) ∧ (0xFE01 : Word) ≠ 0xFE00 ∧ (0xFE01 : Word) ≠ 0xFE02) ∧
    ((∃ t, exec (.ldr 0 0 0) (start 0x3001 [(0, 0xFE02)] .zro [] []) = .next t) ∧
      ¬ ReadsKbsr (.ldr 0 0 0) (start 0x3001 [(0, 0xFE02)] .zro [] [])) :=
  ⟨⟨⟨_, rfl⟩, by decide, by decide, id⟩, ⟨⟨_, rfl⟩, by decide, by show (_ : Word) = _; decide, by decide, by decide⟩,
    ⟨_, rfl⟩, by show ¬ (_ : Word) = _; decide⟩

/-- The string form of ReadsKbsr: met by a string that starts at KBSR or runs up to it, not by one that ends before it; and by LDI
whose pointer is KBSR. -/
theorem witness_ReadsKbsr : ReadsKbsr (.trap 0 0x22) (start 0x3001 [(0, 0xFE00)] .zro [] []) ∧
    ReadsKbsr (.trap 0 0x24) (start 0x3001 [(0, 0xFDFF)] .zro [(0xFDFF, 0x0041)] []) ∧
    ¬ ReadsKbsr (.trap 0 0x22) (start 0x3001 [(0, 0xFDFF)] .zro [] []) ∧
    ReadsKbsr (.ldi 0 1) (start 0x3001 [] .zro [(0x3002, 0xFE00)] []) := by
  refine ⟨⟨.inl rfl, by decide⟩, ⟨.inr rfl, by decide⟩, fun h => absurd (h.2 0 (by decide)) (by decide), .inr (by decide)⟩

theorem witness_OutputOnlyGrowsByTrap : (∃ t, exec (.str 0 0 0) State.reset = .next t) ∧ ∀ ignored v, Instr.str 0 0 0 ≠ .trap ignored v :=
  ⟨⟨_, rfl⟩, fun _ _ h => by cases h⟩

/-- Steps that ask (GETC, a held IN, a fetch at KBSR, LDI through a pointer to KBSR) and take one answer, and one that does not. -/
theorem witness_InputStreamOnlyAdvances :
    (AsksForInput (start 0x3000 [] .zro [(0x3000, 0xF020)] [some 0x61, some 0x62]) ∧
      onNext (step (start 0x3000 [] .zro [(0x3000, 0xF020)] [some 0x61, some 0x62])) (fun t => t.input.answers == [some 0x62]) = true) ∧
    (AsksForInput { start 0x3001 [] .zro [] [none, some 0x62] with hold := some .inEcho } ∧
      onNext (step { start 0x3001 [] .zro [] [none, some 0x62] with hold := some .inEcho })
        (fun t => t.input.answers == [some 0x62]) = true) ∧
    (AsksForInput (start 0xFE00 [] .zro [] [some 0x61]) ∧
      onNext (step (start 0xFE00 [] .zro [] [some 0x61])) (fun t => t.input.answers == []) = true) ∧
    (AsksForInput (start 0x3000 [] .zro [(0x3000, 0xA001), (0x3002, 0xFE00)] [some 0x61]) ∧
      onNext (step (start 0x3000 [] .zro [(0x3000, 0xA001), (0x3002, 0xFE00)] [some 0x61])) (fun t => t.input.answers == []) = true) ∧
    (¬ AsksForInput (start 0x3000 [] .zro [(0x3000, 0x1021)] [some 0x61]) ∧
      onNext (step (start 0x3000 [] .zro [(0x3000, 0x1021)] [some 0x61])) (fun t => t.input.answers == [some 0x61]) = true) := by
  refine ⟨⟨.inr (.inr (.inr ⟨0, 0x20, by decide, .inl rfl⟩)), by decide⟩, ⟨.inl (by decide), by decide⟩, ⟨.inr (.inl rfl), by decide⟩,
    ⟨.inr (.inr (.inl ?_)), by decide⟩, ?_, by decide⟩
  · rw [show decode ((start 0x3000 [] .zro [(0x3000, 0xA001), (0x3002, 0xFE00)] [some 0x61]).memRead
      (start 0x3000 [] .zro [(0x3000, 0xA001), (0x3002, 0xFE00)] [some 0x61]).pc).1 = .ldi 0 1 by decide]
    exact .inr (by decide)
  · have hd : decode ((start 0x3000 [] .zro [(0x3000, 0x1021)] [some 0x61]).memRead
      (start 0x3000 [] .zro [(0x3000, 0x1021)] [some 0x61]).pc).1 = .addImm 0 0 1 := by decide
    rintro (h | h | h | ⟨_, _, h, _⟩)
    · exact absurd h (by decide)
    · exact absurd h (by decide)
    · rw [hd] at h
      exact h
    · rw [hd] at h
      cases h

/-- ST R0, #0 (LS-20), STR R0, R1, #1 with R1 = 0x3000, and STI R0, #1 through a pointer to 0x3001. -/
theorem witness_StoreIsSeenByTheNextFetch :
    (decode ((start 0x3000 [(0, 0xF025)] .zro [(0x3000, 0x3000)] []).memRead 0x3000).1 = .st 0 0 ∧
      onNext (step (start 0x3000 [(0, 0xF025)] .zro [(0x3000, 0x3000)] [])) (fun t => t.mem.read 0x3001 == 0xF025) = true) ∧
    (decode ((start 0x3000 [(0, 0xF025), (1, 0x3000)] .zro [(0x3000, 0x7041)] []).memRead 0x3000).1 = .str 0 1 1 ∧
      (start 0x3000 [(0, 0xF025), (1, 0x3000)] .zro [(0x3000, 0x7041)] []).reg 1 + (1 : BitVec 6).signExtend 16 = 0x3000 + 1 ∧
      onNext (step (start 0x3000 [(0, 0xF025), (1, 0x3000)] .zro [(0x3000, 0x7041)] [])) (fun t => t.pc == 0x3001) = true) ∧
    (decode ((start 0x3000 [(0, 0xF025)] .zro [(0x3000, 0xB001), (0x3002, 0x3001)] []).memRead 0x3000).1 = .sti 0 1 ∧
      ((fetched (start 0x3000 [(0, 0xF025)] .zro [(0x3000, 0xB001), (0x3002, 0x3001)] [])).memRead
        (0x3000 + 1 + (1 : BitVec 9).signExtend 16)).1 = 0x3000 + 1 ∧
      onNext (step (start 0x3000 [(0, 0xF025)] .zro [(0x3000, 0xB001), (0x3002, 0x3001)] []))
        (fun t => t.mem.read 0x3001 == 0xF025) = true) ∧
    (0x3000 + 1 : Word) ≠ 0xFE00 := by decide

theorem witness_JumpToR7ReturnsFromCall : onNext (exec (.jsr 5) (start 0x3002 [] .zro [] []))
    (fun t => (start 0x4000 [(7, 0x3002)] .neg [] []).reg 7 == t.reg 7) = true := by decide

/-- The opcode and mode bits of the statements about one instruction. -/
theorem witness_words : ((0x1283 : Word).extractLsb' 12 4 = 0x1 ∧ (0x1283 : Word)[5] = false) ∧
    ((0x1062 : Word).extractLsb' 12 4 = 0x1 ∧ (0x1062 : Word)[5] = true) ∧
    ((0x5283 : Word).extractLsb' 12 4 = 0x5 ∧ (0x5283 : Word)[5] = false) ∧
    ((0x5020 : Word).extractLsb' 12 4 = 0x5 ∧ (0x5020 : Word)[5] = true) ∧ (0x907F : Word).extractLsb' 12 4 = 0x9 ∧
    (0xC1C0 : Word).extractLsb' 12 4 = 0xC ∧ ((0x4805 : Word).extractLsb' 12 4 = 0x4 ∧ (0x4805 : Word)[11] = true) ∧
    (0xE207 : Word).extractLsb' 12 4 = 0xE ∧ (0x3801 : Word).extractLsb' 12 4 = 0x3 ∧ (0x7441 : Word).extractLsb' 12 4 = 0x7 ∧
    (0x8FFF : Word).extractLsb' 12 4 = 0x8 ∧ (0xD123 : Word).extractLsb' 12 4 = 0xD := by decide

theorem witness_AddRegister : (0x1283 : Word).extractLsb' 12 4 = 0x1 ∧ (0x1283 : Word)[5] = false := witness_words.1
theorem witness_AddImmediate : (0x1062 : Word).extractLsb' 12 4 = 0x1 ∧ (0x1062 : Word)[5] = true := witness_words.2.1
theorem witness_AndRegister : (0x5283 : Word).extractLsb' 12 4 = 0x5 ∧ (0x5283 : Word)[5] = false := witness_words.2.2.1
theorem witness_AndImmediate : (0x5020 : Word).extractLsb' 12 4 = 0x5 ∧ (0x5020 : Word)[5] = true := witness_words.2.2.2.1
theorem witness_NotComplements : (0x907F : Word).extractLsb' 12 4 = 0x9 := by decide
theorem witness_JumpThroughRegister : (0xC1C0 : Word).extractLsb' 12 4 = 0xC := by decide
theorem witness_JumpToSubroutine : (0x4805 : Word).extractLsb' 12 4 = 0x4 ∧ (0x4805 : Word)[11] = true := by decide
theorem witness_LoadEffectiveAddress : (0xE207 : Word).extractLsb' 12 4 = 0xE := by decide
theorem witness_StorePcRelative : (0x3801 : Word).extractLsb' 12 4 = 0x3 := by decide
theorem witness_StoreBaseOffset : (0x7441 : Word).extractLsb' 12 4 = 0x7 := by decide
theorem witness_RtiFaults : (0x8FFF : Word).extractLsb' 12 4 = 0x8 := by decide
theorem witness_ReservedOpcodeFaults : (0xD123 : Word).extractLsb' 12 4 = 0xD := by decide

/-- Taken with COND = ZRO for BRz; not taken for BRn, nor, under no COND, for nzp = 000. -/
theorem witness_BranchOnCondition : ((0x0402 : Word).extractLsb' 12 4 = 0x0 ∧
    taken (0x0402 : Word)[11] (0x0402 : Word)[10] (0x0402 : Word)[9] .zro) ∧ ((0x0802 : Word).extractLsb' 12 4 = 0x0 ∧
    ¬ taken (0x0802 : Word)[11] (0x0802 : Word)[10] (0x0802 : Word)[9] .zro) ∧ ((0x0005 : Word).extractLsb' 12 4 = 0x0 ∧
    ∀ c, ¬ taken (0x0005 : Word)[11] (0x0005 : Word)[10] (0x0005 : Word)[9] c) := by
  refine ⟨⟨by decide, .inr (.inl ⟨by decide, rfl⟩)⟩, ⟨by decide, ?_⟩, by decide, ?_⟩
  · rintro (⟨_, h⟩ | ⟨h, _⟩ | ⟨_, h⟩)
    · cases h
    · exact absurd h (by decide)
    · cases h
  · rintro c (⟨h, _⟩ | ⟨h, _⟩ | ⟨h, _⟩) <;> exact absurd h (by decide)

theorem witness_JumpToSubroutineRegister : ((0x4080 : Word).extractLsb' 12 4 = 0x4 ∧ (0x4080 : Word)[11] = false ∧
    (0x4080 : Word).extractLsb' 6 3 ≠ (7 : Reg)) ∧ ((0x41C0 : Word).extractLsb' 12 4 = 0x4 ∧ (0x41C0 : Word)[11] = false ∧
    (0x41C0 : Word).extractLsb' 6 3 = (7 : Reg)) := by decide

/-- A plain address, and KBSR. -/
theorem witness_LoadPcRelative : (0x2004 : Word).extractLsb' 12 4 = 0x2 ∧
    (0x3005 : Word) = (start 0x3001 [] .zro [] []).pc + ((0x2004 : Word).extractLsb' 0 9).signExtend 16 ∧ (0x3005 : Word) ≠ 0xFE00 ∧
    (0xFE00 : Word) = (start 0xFDFC [] .zro [] []).pc + ((0x2004 : Word).extractLsb' 0 9).signExtend 16 := by decide

/-- A plain pointer, a pointer to KBSR, and a pointer cell that is KBSR. -/
theorem witness_LoadIndirect : (0xA001 : Word).extractLsb' 12 4 = 0xA ∧
    ((0x3002 : Word) = (start 0x3001 [] .zro [(0x3002, 0x4000)] []).pc + ((0xA001 : Word).extractLsb' 0 9).signExtend 16 ∧
      (start 0x3001 [] .zro [(0x3002, 0x4000)] []).mem.read 0x3002 ≠ 0xFE00) ∧
    (start 0x3001 [] .zro [(0x3002, 0xFE00)] []).mem.read 0x3002 = 0xFE00 ∧
    (0xFE00 : Word) = (start 0xFDFF [] .zro [] []).pc + ((0xA001 : Word).extractLsb' 0 9).signExtend 16 := by decide

theorem witness_LoadBaseOffset : (0x6440 : Word).extractLsb' 12 4 = 0x6 ∧
    (0x3008 : Word) = (start 0x3001 [(1, 0x3008)] .zro [] []).reg ((0x6440 : Word).extractLsb' 6 3) +
      ((0x6440 : Word).extractLsb' 0 6).signExtend 16 ∧
    (0xFE00 : Word) = (start 0x3001 [(1, 0xFE00)] .zro [] []).reg ((0x6440 : Word).extractLsb' 6 3) +
      ((0x6440 : Word).extractLsb' 0 6).signExtend 16 := by decide

theorem witness_StoreIndirect : (0xB002 : Word).extractLsb' 12 4 = 0xB ∧
    (0x3006 : Word) = (start 0x3004 [] .zro [] []).pc + ((0xB002 : Word).extractLsb' 0 9).signExtend 16 ∧ (0x3006 : Word) ≠ 0xFE00 ∧
    (0xFE00 : Word) = (start 0xFDFE [] .zro [] []).pc + ((0xB002 : Word).extractLsb' 0 9).signExtend 16 := by decide

theorem witness_GetcReadsACharacter : (0xF020 : Word).extractLsb' 12 4 = 0xF ∧ (0xF020 : Word).extractLsb' 0 8 = (0x20 : Byte) ∧
    (start 0x3001 [] .zro [] [some 0x61]).input.draw.1 = some 0x61 := by decide
theorem witness_OutWritesLowByte : (0xF021 : Word).extractLsb' 12 4 = 0xF ∧ (0xF021 : Word).extractLsb' 0 8 = (0x21 : Byte) := by decide
theorem witness_InReadsAndEchoes : (0xF023 : Word).extractLsb' 12 4 = 0xF ∧ (0xF023 : Word).extractLsb' 0 8 = (0x23 : Byte) ∧
    (start 0x3001 [] .zro [] [some 0x71]).input.draw.1 = some 0x71 := by decide
theorem witness_HaltPrintsAndStops : (0xFF25 : Word).extractLsb' 12 4 = 0xF ∧ (0xFF25 : Word).extractLsb' 0 8 = (0x25 : Byte) ∧
    State.reset.fault = none ∧ onNext (exec (.trap 0xF 0x25) State.reset) (fun t => t.running != State.reset.running) = true := by decide

/-- PUTS and PUTSP with a next state; the run of the loop is that of an empty string. -/
theorem witness_PutsIsItsLoop : (0xF022 : Word).extractLsb' 12 4 = 0xF ∧ (0xF022 : Word).extractLsb' 0 8 = (0x22 : Byte) ∧
    (∃ t, StringRun (fun w => [w.extractLsb' 0 8]) (State.reset.reg 0) State.reset.link t) ∧
    onNext (exec (decode 0xF022) State.reset) (fun _ => true) = true :=
  ⟨by decide, by decide, ⟨_, .stop (by decide)⟩, by decide⟩
theorem witness_PutspIsItsLoop : (0xF024 : Word).extractLsb' 12 4 = 0xF ∧ (0xF024 : Word).extractLsb' 0 8 = (0x24 : Byte) ∧
    (∃ t, StringRun putspBytes (State.reset.reg 0) State.reset.link t) ∧
    onNext (exec (decode 0xF024) State.reset) (fun _ => true) = true :=
  ⟨by decide, by decide, ⟨_, .stop (by decide)⟩, by decide⟩

/-- "Hi" at 0x4000, and the empty string there. -/
theorem witness_StringsAreWrittenOut : (∀ k (hk : k < ([0x0048, 0x0069] : List Word).length),
    (start 0x3001 [(0, 0x4000)] .zro [(0x4000, 0x0048), (0x4001, 0x0069)] []).mem.read
      ((start 0x3001 [(0, 0x4000)] .zro [(0x4000, 0x0048), (0x4001, 0x0069)] []).reg 0 + BitVec.ofNat 16 k)
        = ([0x0048, 0x0069] : List Word)[k] ∧ ([0x0048, 0x0069] : List Word)[k] ≠ 0 ∧
    (start 0x3001 [(0, 0x4000)] .zro [(0x4000, 0x0048), (0x4001, 0x0069)] []).reg 0 + BitVec.ofNat 16 k ≠ 0xFE00) ∧
    (start 0x3001 [(0, 0x4000)] .zro [(0x4000, 0x0048), (0x4001, 0x0069)] []).mem.read 0x4002 = 0 ∧
    (start 0x3001 [(0, 0x4000)] .zro [] []).mem.read 0x4000 = 0 ∧ (0x4000 : Word) ≠ 0xFE00 := by decide

/-- Both parts: no character at hand, and a held state with none, with one, and with an agent that never has one. -/
theorem witness_InputHold : (start 0x3001 [] .zro [] [none]).input.draw.1 = none ∧
    (({ start 0x3001 [] .zro [] [none] with hold := some .getc } : State).running = true ∧
      ({ start 0x3001 [] .zro [] [none] with hold := some .getc } : State).fault = none ∧
      ({ start 0x3001 [] .zro [] [none] with hold := some .getc } : State).hold = some .getc) ∧
    ({ start 0x3001 [] .zro [] [some 0x61] with hold := some .inEcho } : State).input.draw.1 = some 0x61 ∧
    ({ start 0x3001 [] .zro [] [] with hold := some .inEcho } : State).input = { answers := [], thereafter := none } := by decide

/-- Vectors on either side of the six. -/
theorem witness_UnknownVectorFaults : (0xF01F : Word).extractLsb' 12 4 = 0xF ∧ (0xF026 : Word).extractLsb' 12 4 = 0xF ∧
    [(0xF01F : Word), 0xF026, 0xF000, 0xFFFF].all
      (fun ir => !(decide (0x20 ≤ (ir.extractLsb' 0 8).toNat) && decide ((ir.extractLsb' 0 8).toNat ≤ 0x25))) = true ∧
    [(0xF020 : Word), 0xF025].all
      (fun ir => decide (0x20 ≤ (ir.extractLsb' 0 8).toNat) && decide ((ir.extractLsb' 0 8).toNat ≤ 0x25)) = true := by decide

/-- One faulting step for each cause. -/
theorem witness_FaultedStateIsFinal : (start 0x3000 [] .zro [(0x3000, 0x8000)] []).running = true ∧
    (start 0x3000 [] .zro [(0x3000, 0x8000)] []).fault = none ∧ (start 0x3000 [] .zro [(0x3000, 0x8000)] []).hold = none ∧
    [((0x8000 : Word), FaultCause.rtiOpcode), (0xD123, .reservedOpcode), (0xF026, .badTrapVector)].all
      (fun p => onNext (step (start 0x3000 [] .zro [(0x3000, p.1)] [])) (fun t => t.fault == some ⟨p.2, p.1, 0x3000⟩)) = true := by
  decide

/-! ## A string routine that never returns (EndlessStringStops) -/

/-- Memory in which no word is 0x0000, as a poll that finds 0x41 leaves it. -/
def fullMemory : Memory := (List.range 0x10000).map fun a => (a, if a = 0xFE00 then 0x8000 else 0x0041)

theorem lookup_map_range (f : Nat → Word) (l : List Nat) (a : Nat) (h : a ∈ l) :
    Memory.lookup (l.map fun b => (b, f b)) a = f a := by
  induction l with
  | nil => cases h
  | cons b l ih =>
    show (if b = a then f b else Memory.lookup (l.map fun b => (b, f b)) a) = f a
    split
    · next hb => rw [hb]
    · next hb => exact ih ((List.mem_cons.mp h).resolve_left (Ne.symm hb))

theorem fullMemory_read (a : Word) : Memory.read fullMemory a = if a = kbsr then 0x8000 else 0x0041 := by
  unfold Memory.read fullMemory
  rw [lookup_map_range (fun b => if b = 0xFE00 then 0x8000 else 0x0041) _ _ (List.mem_range.mpr a.isLt)]
  have : a.toNat = 0xFE00 ↔ a = kbsr := ⟨fun h => BitVec.eq_of_toNat_eq h, fun h => by rw [h]; rfl⟩
  simp only [this]

theorem endless_of_full (m : Memory) (hm : ∀ a, Memory.read m a = if a = kbsr then 0x8000#16 else 0x0041#16) (a : Word) (t : State) :
    ¬ StringRun putsBytes a ({ State.reset with mem := m, input := { answers := [], thereafter := some 0x41 } } : State).link t := by
  intro h
  obtain ⟨n, hn⟩ := State.exists_stringLoop h
  have hs : State.Steady (fun a => if a = kbsr then 0x8000#16 else 0x0041#16)
      ({ State.reset with mem := m, input := { answers := [], thereafter := some 0x41 } } : State).link := by
    refine ⟨rfl, rfl, hm, fun a => ?_⟩
    rw [State.pollKeyboard_read]
    simp only [State.link_input, State.link_mem, InputAgent.draw, charWord, Option.isSome_some, if_true, hm]
    split_ifs <;> rfl
  obtain ⟨i, hi⟩ := hs.exists_zero hn
  revert hi
  show (if _ then _ else _) = _ → False
  split <;> exact fun h => absurd h (by decide)

/-- The statement's side "never returns" is met: with such a memory and an agent that always has 0x41 ready, no string ends. -/
theorem witness_EndlessStringStops : ∃ s : State, ∀ t, ¬ StringRun putsBytes (s.reg 0) s.link t :=
  ⟨_, endless_of_full fullMemory fullMemory_read _⟩

end Sys2Proof.Tests
end

section
/-! The condition codes (00_scope.md R15): the value of `classify` on each class of words, and what `setcc` writes. -/

namespace Sys2Proof.Machine

theorem ne_zero_of_bit15 {w : Word} (hsign : w.getLsbD 15 = true) : w ≠ 0#16 := by
  rintro rfl
  exact absurd hsign (by decide)

/-- The definition asks for the most significant bit; the spec calls it bit 15 (00_scope.md R15). -/
theorem classify_of_ne_zero {w : Word} (hzero : w ≠ 0#16) :
    classify w = if w.getLsbD 15 then .neg else .pos := by
  have hmsb : w.msb = w.getLsbD 15 := BitVec.msb_eq_getLsbD_last w
  rw [← hmsb]
  exact if_neg hzero

theorem classify_zero : classify 0#16 = .zro := rfl

theorem classify_of_bit15 {w : Word} (hsign : w.getLsbD 15 = true) : classify w = .neg := by
  rw [classify_of_ne_zero (ne_zero_of_bit15 hsign), if_pos hsign]

theorem classify_of_ne_zero_of_not_bit15 {w : Word} (hzero : w ≠ 0#16) (hsign : w.getLsbD 15 = false) :
    classify w = .pos := by
  rw [classify_of_ne_zero hzero, hsign]
  rfl

/-- Zero, bit 15 set, any other: each word lies in one case, and there its class and the three tests are all decided. -/
theorem classify_eq_iff (w : Word) : (classify w = .zro ↔ w = 0) ∧ (classify w = .neg ↔ w.getLsbD 15 = true) ∧
    (classify w = .pos ↔ w ≠ 0 ∧ w.getLsbD 15 = false) := by
  by_cases hzero : w = 0#16
  · simp [hzero, classify_zero]
  · cases hsign : w.getLsbD 15 with
    | true => simp [classify_of_bit15 hsign, hzero]
    | false => simp [classify_of_ne_zero_of_not_bit15 hzero hsign, hzero]

theorem State.setcc_eq (s : State) (w : Word) : s.setcc w = { s with cond := classify w } := rfl

end Sys2Proof.Machine

namespace Sys2Proof.Proofs

open Sys2Proof.Machine

/-- Settles O8, from the tests that decide each class and the equation of `setcc`. -/
theorem classifyByZeroAndSign : Obligations.ClassifyByZeroAndSign := by
  intro w
  obtain ⟨hzro, hneg, hpos⟩ := classify_eq_iff w
  exact ⟨hzro, hneg, hpos, fun s => s.setcc_eq w⟩

end Sys2Proof.Proofs
end

section
/-! Reset, boot and exit (10_state.md R29, R39, R41): loading an image word by word, and the two open statuses. -/

namespace Sys2Proof.Machine

@[simp] theorem State.reset_reg (r : Reg) : State.reset.reg r = 0#16 := by
  simp [State.reg, State.reset]

@[simp] theorem State.reset_mem_read (a : Word) : State.reset.mem.read a = 0#16 := rfl

/-- The k-th address after the next one is the (k+1)-th after this one. -/
theorem add_one_add_ofNat (a : Word) (k : Nat) : a + 1#16 + BitVec.ofNat 16 k = a + BitVec.ofNat 16 (k + 1) := by
  rw [Nat.add_comm, BitVec.ofNat_add, ← BitVec.add_assoc]

/-- Loading an image changes memory alone. -/
theorem State.loadWords_frame (s : State) (a : Word) (ws : List Word) :
    s.loadWords a ws = s.setMem (s.loadWords a ws).mem := by
  induction ws generalizing s a with
  | nil => rfl
  | cons w ws ih => exact ih (s.memWrite a w) (a + 1#16)

theorem State.load_frame (s : State) (image : Image) : s.load image = s.setMem (s.load image).mem :=
  s.loadWords_frame image.origin image.words

/-- A word that no image word is placed on reads as before. -/
theorem State.loadWords_read_uncovered (s : State) (a : Word) {ws : List Word} {b : Word}
    (hb : ∀ k, k < ws.length → b ≠ a + BitVec.ofNat 16 k) : (s.loadWords a ws).mem.read b = s.mem.read b := by
  induction ws generalizing s a with
  | nil => rfl
  | cons w ws ih =>
    have hhead : b ≠ a := by simpa using hb 0 (by simp)
    have htail : ∀ k, k < ws.length → b ≠ a + 1#16 + BitVec.ofNat 16 k := fun k hk => by
      rw [add_one_add_ofNat]
      exact hb (k + 1) (by simpa using hk)
    calc ((s.memWrite a w).loadWords (a + 1#16) ws).mem.read b
        = (s.memWrite a w).mem.read b := ih _ _ htail
      _ = s.mem.read b := Memory.read_write_ne s.mem w hhead

/-- An image word that no later one is placed on (92_eei_decisions.md D21) is what its address reads as. -/
theorem State.loadWords_read_last (s : State) (a : Word) {ws : List Word} {k : Nat} (hk : k < ws.length)
    (hlast : ∀ j, k < j → j < ws.length → BitVec.ofNat 16 j ≠ BitVec.ofNat 16 k) :
    (s.loadWords a ws).mem.read (a + BitVec.ofNat 16 k) = ws[k] := by
  induction ws generalizing s a k with
  | nil => cases hk
  | cons w ws ih =>
    cases k with
    | zero =>
      have huncovered : ∀ j, j < ws.length → a + BitVec.ofNat 16 0 ≠ a + 1#16 + BitVec.ofNat 16 j := fun j hj h => by
        rw [add_one_add_ofNat, BitVec.add_right_inj] at h
        exact hlast (j + 1) (by omega) (by simpa using hj) h.symm
      calc ((s.memWrite a w).loadWords (a + 1#16) ws).mem.read (a + BitVec.ofNat 16 0)
          = (s.memWrite a w).mem.read (a + BitVec.ofNat 16 0) := State.loadWords_read_uncovered _ _ huncovered
        _ = w := by simp
    | succ k =>
      have hlast' : ∀ j, k < j → j < ws.length → BitVec.ofNat 16 j ≠ BitVec.ofNat 16 k := fun j hkj hj h => by
        refine hlast (j + 1) (by omega) (by simpa using hj) ?_
        rw [BitVec.ofNat_add, h, BitVec.ofNat_add]
      rw [← add_one_add_ofNat]
      exact ih (s.memWrite a w) (a + 1#16) (by simpa using hk) hlast'

theorem State.exitCode_of_halted {s : State} (h : s.Halted) : s.exitCode = some 0 := by
  obtain ⟨hrunning, hfault⟩ := h
  simp [State.exitCode, hrunning, hfault]

theorem State.exitCode_of_faulted {s : State} (h : s.Faulted) : s.exitCode = some Config.exitFault := by
  obtain ⟨f, hf⟩ := Option.isSome_iff_exists.mp h
  simp [State.exitCode, hf]

theorem exitFault_ne_zero : Config.exitFault ≠ 0 := Nat.succ_ne_zero _

theorem exitStartup_ne_zero : Config.exitStartup ≠ 0 := by
  unfold Config.exitStartup
  split <;> omega

/-- The draw for the startup status steps over the fault's. -/
theorem exitFault_ne_exitStartup : Config.exitFault ≠ Config.exitStartup := by
  unfold Config.exitStartup
  split <;> omega

end Sys2Proof.Machine

namespace Sys2Proof.Proofs

open Sys2Proof.Machine

/-- Settles O13, from the fields of the reset state. -/
theorem resetValues : Obligations.ResetValues :=
  ⟨rfl, State.reset_reg, rfl, rfl, rfl, State.reset_mem_read⟩

/-- Settles O14: the load changes memory alone, and there each address holds the last word placed on it. -/
theorem bootStateFromImage : Obligations.BootStateFromImage := by
  intro image agent
  refine ⟨_, rfl, ?_⟩
  rw [State.load_frame]
  exact ⟨State.reset_reg, rfl, rfl, rfl, rfl, fun k hk hlast => State.loadWords_read_last _ _ hk hlast,
    fun a ha => State.loadWords_read_uncovered _ _ ha⟩

/-- Settles O15, from the exit status of each final state and the two open statuses. -/
theorem exitStatus : Obligations.ExitStatus :=
  ⟨fun _ => State.exitCode_of_halted, fun _ => State.exitCode_of_faulted, fun _ => rfl, exitFault_ne_zero,
    exitStartup_ne_zero, exitFault_ne_exitStartup⟩

end Sys2Proof.Proofs
end

section
/-! What an instruction leaves unchanged: the registers, COND, PC, the running flag and the output (10_state.md R22, R24, R27, R30,
R40). TRAP's routines come in five shapes, and one frame covers them; the other instructions are taken by what they write. -/

namespace Sys2Proof.Machine

open Sys2Proof.Spec

/-! ## The operations the instructions share -/

@[simp] theorem State.loadResult_pc (dr : Reg) (read : Word × State) : (State.loadResult dr read).pc = read.2.pc := rfl
@[simp] theorem State.loadResult_running (dr : Reg) (read : Word × State) :
    (State.loadResult dr read).running = read.2.running := rfl
@[simp] theorem State.loadResult_output (dr : Reg) (read : Word × State) :
    (State.loadResult dr read).output = read.2.output := rfl
@[simp] theorem State.loadResult_input (dr : Reg) (read : Word × State) :
    (State.loadResult dr read).input = read.2.input := rfl

@[simp] theorem State.putBytes_nil (s : State) : s.putBytes [] = s := by
  simp [State.putBytes]

theorem keepsRegsBut_writeResult (s : State) (dr : Reg) (v : Word) : KeepsRegsBut [dr] s (s.writeResult dr v) :=
  fun _ hr => s.reg_writeResult_ne v (List.ne_of_not_mem_cons hr)

theorem keepsRegsBut_link (s : State) : KeepsRegsBut [7#3] s s.link :=
  fun _ hr => s.link_reg_ne (List.ne_of_not_mem_cons hr)

/-- A load writes DR alone, for the read before it writes no register. -/
theorem keepsRegsBut_loadResult {s : State} {read : Word × State} (dr : Reg) (hread : ∀ r, read.2.reg r = s.reg r) :
    KeepsRegsBut [dr] s (State.loadResult dr read) :=
  fun r hr => (keepsRegsBut_writeResult read.2 dr read.1 r hr).trans (hread r)

/-- BR's bit test is the condition of 41_control.md R130. -/
theorem branchTaken_iff (n z p : Bool) (c : Cond) : branchTaken n z p c = true ↔ taken n z p c := by
  cases c <;> cases n <;> cases z <;> cases p <;> simp [branchTaken, taken, Cond.bits]

/-! ## TRAP -/

/-- The vectors of GETC and IN, the routines that ask for a character (43_trap_system.md R186, R189). -/
def AwaitsChar (v : BitVec 8) : Prop := v = 0x20 ∨ v = 0x23

/-- The vectors of PUTS and PUTSP (43_trap_system.md R188, R190). -/
def WritesString (v : BitVec 8) : Prop := v = 0x22 ∨ v = 0x24

/-- R7 is the link, and R0 is written only where a character may come. -/
theorem not_mem_writes_trap {ignored : BitVec 4} {v : BitVec 8} {r : Reg} :
    r ∉ writes (.trap ignored v) ↔ r ≠ 7#3 ∧ (r = 0#3 → ¬ AwaitsChar v) := by
  by_cases hv : AwaitsChar v
  · have hwrites : writes (.trap ignored v) = [7#3, 0#3] := if_pos hv
    simp [hwrites, hv]
  · have hwrites : writes (.trap ignored v) = [7#3] := if_neg hv
    simp [hwrites, hv]

/-- TRAP links and then asks for a character, runs a string loop, writes bytes (OUT), halts, or records a fault. -/
theorem execTrap_shapes {ignored : BitVec 4} {v : BitVec 8} {s t : State} (h : execTrap ignored v s = .next t) :
    (AwaitsChar v ∧ ∃ hold, t = s.link.awaitChar hold) ∨
    (WritesString v ∧ ∃ bytes, StringRun bytes (s.reg 0#3) s.link t) ∨
    (v = 0x21 ∧ ∃ bytes, t = s.link.putBytes bytes) ∨
    (v = 0x25 ∧ t = s.link.halt) ∨
    (routineOf v = none ∧ ∃ f, t = s.link.setFault f) := by
  have h0 : s.link.reg 0#3 = s.reg 0#3 := s.link_reg_ne (by decide)
  rcases execTrap_cases h with ⟨hv, rfl⟩ | ⟨hv, rfl⟩ | ⟨hv, hrun⟩ | ⟨hv, rfl⟩ | ⟨hv, hrun⟩ | ⟨hv, rfl⟩ | ⟨hv, rfl⟩
  · exact .inl ⟨.inl hv, _, rfl⟩
  · exact .inr (.inr (.inl ⟨hv, _, rfl⟩))
  · exact .inr (.inl ⟨.inl hv, _, h0 ▸ State.run_of_stringLoop hrun⟩)
  · exact .inl ⟨.inr hv, .inEcho, by simp [State.inEcho, inPrompt]⟩
  · exact .inr (.inl ⟨.inr hv, _, h0 ▸ State.run_of_stringLoop hrun⟩)
  · exact .inr (.inr (.inr (.inl ⟨hv, rfl⟩)))
  · exact .inr (.inr (.inr (.inr ⟨hv, _, rfl⟩)))

/-- What TRAP keeps, by vector. -/
structure TrapFrame (v : BitVec 8) (s t : State) : Prop where
  pc : t.pc = s.pc
  reg : ∀ r, r ≠ 7#3 → (r = 0#3 → ¬ AwaitsChar v) → t.reg r = s.reg r
  cond : ¬ AwaitsChar v → t.cond = s.cond
  running : v ≠ 0x25 → t.running = s.running
  output : s.output <+: t.output

theorem execTrap_frame {ignored : BitVec 4} {v : BitVec 8} {s t : State} (h : execTrap ignored v s = .next t) :
    TrapFrame v s t := by
  have hlink : ∀ r, r ≠ 7#3 → s.link.reg r = s.reg r := fun r => s.link_reg_ne
  rcases execTrap_shapes h with ⟨hv, hold, rfl⟩ | ⟨-, bytes, hrun⟩ | ⟨-, bytes, rfl⟩ | ⟨hv, rfl⟩ | ⟨-, f, rfl⟩
  · obtain ⟨hreg, hpc, hrunning, -, -, -, hout⟩ := s.link.awaitChar_frame hold
    exact ⟨hpc, fun r h7 h0 => (hreg r fun e => h0 e hv).trans (hlink r h7), fun hn => absurd hv hn, fun _ => hrunning, hout⟩
  · obtain ⟨hreg, hpc, hcond, hrunning, -, -, hout, -⟩ := hrun.frame
    exact ⟨hpc, fun r h7 _ => (hreg r).trans (hlink r h7), fun _ => hcond, fun _ => hrunning, hout⟩
  · exact ⟨rfl, fun r h7 _ => hlink r h7, fun _ => rfl, fun _ => rfl, List.prefix_append _ _⟩
  · exact ⟨rfl, fun r h7 _ => hlink r h7, fun _ => rfl, fun hn => absurd hv hn, List.prefix_append _ _⟩
  · exact ⟨rfl, fun r h7 _ => hlink r h7, fun _ => rfl, fun _ => rfl, List.prefix_rfl⟩

/-! ## The other instructions -/

/-- Only a TRAP reaches the running flag and the output. -/
theorem exec_frame_of_not_trap {i : Instr} {s t : State} (hi : ∀ ignored v, i ≠ .trap ignored v)
    (h : exec i s = .next t) : t.running = s.running ∧ t.output = s.output := by
  cases i with
  | trap ignored v => exact absurd rfl (hi ignored v)
  | br n z p off =>
    cases h
    split <;> exact ⟨rfl, rfl⟩
  | ld | ldi | ldr | sti => cases h; simp [State.readPointer]
  | addReg | addImm | st | jsr | jsrr | andReg | andImm | str | rti | not | jmp | reserved | lea => cases h; exact ⟨rfl, rfl⟩

/-- The running flag is kept, but for HALT (10_state.md R30). -/
theorem exec_running {i : Instr} {s t : State} (h : exec i s = .next t) (hi : ∀ ignored, i ≠ .trap ignored 0x25) :
    t.running = s.running := by
  cases i with
  | trap ignored v => exact (execTrap_frame h).running fun hv => hi ignored (hv ▸ rfl)
  | _ => exact (exec_frame_of_not_trap (by simp) h).1

end Sys2Proof.Machine

namespace Sys2Proof.Proofs

open Sys2Proof.Machine Sys2Proof.Spec

/-- Settles O21: a step that clears the flag is no hold, which keeps it, and executes HALT, the one instruction that does not. -/
theorem onlyHaltClearsRunning : Obligations.OnlyHaltClearsRunning := by
  intro s t h
  rcases step_cases h with ⟨hold, hphase, rfl⟩ | ⟨hphase, hexec⟩
  · obtain ⟨-, hrunning, -⟩ := State.phase_waiting.mp hphase
    obtain ⟨-, -, hkept, -⟩ := s.awaitChar_frame hold
    exact ⟨fun _ => hrunning, fun hstop => by simp [hkept, hrunning] at hstop⟩
  · obtain ⟨-, hrunning, hhold⟩ := State.phase_fetching.mp hphase
    refine ⟨fun _ => hrunning, fun hstop => ⟨hhold, ?_⟩⟩
    by_contra hhalt
    have hkept : t.running = s.fetch.2.running := exec_running hexec fun ignored hi => hhalt ⟨ignored, hi⟩
    simp [hkept, State.fetch, hrunning] at hstop

/-- Settles O22: outside the list nothing but a jump, a store, a fault or a TRAP without a character is left. -/
theorem onlyListedInstructionsWriteCond : Obligations.OnlyListedInstructionsWriteCond := by
  intro i s t h hi
  cases i with
  | trap ignored v => exact (execTrap_frame h).cond hi
  | br n z p off =>
    cases h
    split <;> rfl
  | sti => cases h; simp [State.readPointer]
  | jmp | jsr | jsrr | st | str | rti | reserved => cases h; rfl
  | addReg | addImm | andReg | andImm | not | ld | ldi | ldr | lea => exact absurd trivial hi

/-- Settles O24, by the register each group of instructions writes. -/
theorem onlyListedRegistersAreWritten : Obligations.OnlyListedRegistersAreWritten := by
  intro i s t h
  cases i with
  | trap ignored v =>
    intro r hr
    obtain ⟨h7, h0⟩ := not_mem_writes_trap.mp hr
    exact (execTrap_frame h).reg r h7 h0
  | br n z p off =>
    cases h
    split <;> exact fun _ _ => rfl
  | jsr | jsrr => cases h; exact keepsRegsBut_link s
  | addReg | addImm | andReg | andImm | not | lea => cases h; exact keepsRegsBut_writeResult s _ _
  | ld | ldi | ldr => cases h; exact keepsRegsBut_loadResult _ (by simp [State.readPointer])
  | sti => cases h; exact fun _ _ => by simp [State.readPointer]
  | jmp | st | str | rti | reserved => cases h; exact fun _ _ => rfl

/-- Settles O25: the four jumps by their targets, and every other instruction because it leaves PC. -/
theorem pcAfterEachInstruction : Obligations.PcAfterEachInstruction := by
  intro i s t h
  cases i with
  | br n z p off =>
    cases h
    simp only [PcAfter, ← branchTaken_iff]
    split <;> simp_all [State.pcRel9, sext]
  | jsrr hi baseR lo =>
    cases h
    exact s.reg_setReg 7#3 baseR s.pc
  | trap ignored v => exact (execTrap_frame h).pc
  | jmp | jsr => cases h; rfl
  | ld | ldi | ldr | sti => cases h; simp [PcAfter, State.readPointer]
  | addReg | addImm | andReg | andImm | not | lea | st | str | rti | reserved => cases h; rfl

/-- Settles O27: the output of a TRAP extends the one before, any other instruction keeps it. -/
theorem outputOnlyGrowsByTrap : Obligations.OutputOnlyGrowsByTrap := by
  intro i s t h
  by_cases hi : ∀ ignored v, i ≠ .trap ignored v
  · obtain ⟨-, hout⟩ := exec_frame_of_not_trap hi h
    exact ⟨hout ▸ List.prefix_rfl, fun _ => hout⟩
  · push Not at hi
    obtain ⟨ignored, v, rfl⟩ := hi
    exact ⟨(execTrap_frame h).output, fun hne => absurd rfl (hne ignored v)⟩

end Sys2Proof.Proofs
end

section
/-! COND does not flow into anything but BR (10_state.md R28): each operation commutes with a change of COND, or overwrites it. -/

namespace Sys2Proof.Machine

open Sys2Proof.Spec

theorem State.stringLoop_setCond (bytes : Word → List Byte) (n : Nat) (a : Word) (s : State) (c : Cond) :
    State.stringLoop bytes n a (s.setCond c) = (State.stringLoop bytes n a s).map (·.setCond c) := by
  induction n generalizing a s with
  | zero => rfl
  | succ n ih =>
    rw [State.stringLoop_succ, State.stringLoop_succ, s.memRead_setCond]
    split
    · rfl
    · exact ih (a + 1#16) ((s.memRead a).2.putBytes (bytes (s.memRead a).1))

/-- A character that comes overwrites COND; without one it stays. -/
theorem State.awaitChar_setCond (s : State) (hold : Hold) (c : Cond) :
    withoutCond (.next ((s.setCond c).awaitChar hold)) = withoutCond (.next (s.awaitChar hold)) := by
  unfold State.awaitChar State.poll
  simp only [State.setCond_input]
  cases s.input.draw.1 <;> cases hold <;> rfl

theorem withoutCond_outcomeOfString_setCond (o : Option State) (c : Cond) :
    withoutCond (outcomeOfString (o.map (·.setCond c))) = withoutCond (outcomeOfString o) := by
  cases o <;> rfl

theorem execTrap_setCond (ignored : BitVec 4) (v : BitVec 8) (s : State) (c : Cond) :
    withoutCond (execTrap ignored v (s.setCond c)) = withoutCond (execTrap ignored v s) := by
  have hstring : ∀ bytes, withoutCond (outcomeOfString
      (State.stringLoop bytes s.link.stringFuel (s.link.reg 0#3) (s.link.setCond c))) =
      withoutCond (outcomeOfString (State.stringLoop bytes s.link.stringFuel (s.link.reg 0#3) s.link)) := fun bytes => by
    rw [State.stringLoop_setCond, withoutCond_outcomeOfString_setCond]
  unfold execTrap
  split
  case h_1 => exact s.link.awaitChar_setCond .getc c
  case h_3 => exact hstring putsBytes
  case h_4 => exact (s.link.putBytes inPrompt).awaitChar_setCond .inEcho c
  case h_5 => exact hstring putspBytes
  all_goals rfl

theorem State.readPointer_setCond (s : State) (off : BitVec 9) (c : Cond) :
    (s.setCond c).readPointer off = ((s.readPointer off).1, (s.readPointer off).2.setCond c) :=
  s.memRead_setCond (s.pcRel9 off) c

/-- A load reads the same words into DR, and overwrites COND. -/
theorem State.loadResult_memRead_setCond (dr : Reg) (s : State) (a : Word) (c : Cond) :
    State.loadResult dr ((s.setCond c).memRead a) = State.loadResult dr (s.memRead a) := by
  rw [s.memRead_setCond]
  rfl

end Sys2Proof.Machine

namespace Sys2Proof.Proofs

open Sys2Proof.Machine Sys2Proof.Spec

/-- Settles O23, instruction by instruction: only the reads of memory and TRAP's routines look at more than a register or PC. -/
theorem onlyBrReadsCond : Obligations.OnlyBrReadsCond := by
  intro i s c hi
  change withoutCond (exec i (s.setCond c)) = withoutCond (exec i s)
  cases i with
  | br n z p off => exact absurd rfl (hi n z p off)
  | trap ignored v => exact execTrap_setCond ignored v s c
  | ld dr off => exact congrArg (fun t => withoutCond (.next t)) (State.loadResult_memRead_setCond dr s _ c)
  | ldr dr baseR off => exact congrArg (fun t => withoutCond (.next t)) (State.loadResult_memRead_setCond dr s _ c)
  | ldi dr off =>
    change withoutCond (.next _) = withoutCond (.next _)
    rw [s.readPointer_setCond, State.loadResult_memRead_setCond]
  | sti sr off =>
    change withoutCond (.next _) = withoutCond (.next _)
    rw [s.readPointer_setCond]
    rfl
  | addReg | addImm | andReg | andImm | not | lea | st | str | jmp | jsr | jsrr | rti | reserved => rfl

end Sys2Proof.Proofs
end

section
/-! How far a step moves the input stream (10_state.md R36, 20_memory.md R56, R57): the requests it makes are counted, and each takes
one answer. An instruction makes one where it reads KBSR or awaits a character, a string one at each pass of KBSR. -/

namespace Sys2Proof.Machine

open Sys2Proof.Spec

/-- The stream has moved from `before` to `after` by `n` requests: at least one exactly where `asks`, at most one unless `string`. -/
structure Draws (asks string : Prop) (before after : InputAgent) (n : Nat) : Prop where
  moved : after = (fun agent : InputAgent => agent.draw.2)^[n] before
  asked : asks → 1 ≤ n
  unasked : ¬ asks → n = 0
  once : ¬ string → n ≤ 1

/-- One request where `asks`, none elsewhere. -/
theorem exists_draws_of_request {asks string : Prop} {before after : InputAgent} (hasked : asks → after = before.draw.2)
    (hunasked : ¬ asks → after = before) : ∃ n, Draws asks string before after n := by
  by_cases h : asks
  · exact ⟨1, hasked h, fun _ => le_rfl, fun hn => absurd h hn, fun _ => le_rfl⟩
  · exact ⟨0, hunasked h, fun ha => absurd ha h, fun _ => rfl, fun _ => Nat.zero_le 1⟩

/-! ## Instructions -/

/-- After its fetch the instruction asks for a character: it reads KBSR, or it is a GETC or IN. -/
def InstrAsks (i : Instr) (s : State) : Prop := ReadsKbsr i s ∨ ∃ ignored v, i = .trap ignored v ∧ AwaitsChar v

/-- The instruction is a PUTS or PUTSP. -/
def IsString (i : Instr) : Prop := ∃ ignored v, i = .trap ignored v ∧ WritesString v

theorem not_awaitsChar_of_writesString {v : BitVec 8} (h : WritesString v) : ¬ AwaitsChar v := by
  rcases h with rfl | rfl <;> unfold AwaitsChar <;> decide

theorem instrAsks_trap {ignored : BitVec 4} {v : BitVec 8} {s : State} :
    InstrAsks (.trap ignored v) s ↔ (WritesString v ∧ s.NoZeroBeforeKbsr (s.reg 0#3)) ∨ AwaitsChar v := by
  refine or_congr Iff.rfl ⟨?_, fun hv => ⟨ignored, v, rfl, hv⟩⟩
  rintro ⟨_, _, ⟨⟩, hv⟩
  exact hv

theorem not_instrAsks_trap {ignored : BitVec 4} {v : BitVec 8} {s : State} (hstring : ¬ WritesString v)
    (hawaits : ¬ AwaitsChar v) : ¬ InstrAsks (.trap ignored v) s := by
  rw [instrAsks_trap]
  exact fun h => h.elim (fun h => hstring h.1) hawaits

/-- The two words a read of KBSR can give (20_memory.md R56). -/
theorem State.memRead_kbsr_word (s : State) : (s.memRead kbsr).1 = 0x8000#16 ∨ (s.memRead kbsr).1 = 0x0000#16 := by
  rw [s.memRead_kbsr]
  exact ite_eq_or_eq _ _ _

/-- LDI polls once where either address is KBSR: a first read of KBSR gives a word that is not its address. -/
theorem State.ldi_input (s : State) (off : BitVec 9) :
    ((s.readPointer off).2.memRead (s.readPointer off).1).2.input =
      if s.pcRel9 off = kbsr ∨ s.mem.read (s.pcRel9 off) = kbsr then s.input.draw.2 else s.input := by
  unfold State.readPointer
  by_cases h : s.pcRel9 off = kbsr
  · have hpointer : (s.memRead kbsr).1 ≠ kbsr := by
      rcases s.memRead_kbsr_word with hw | hw <;> rw [hw] <;> decide
    rw [h, State.memRead_input, if_neg hpointer, State.memRead_input, if_pos rfl, if_pos (.inl rfl)]
  · rw [s.memRead_plain h, State.memRead_input]
    simp only [h, false_or]

/-- An instruction that is no TRAP makes one request where it reads KBSR, and none elsewhere. -/
theorem exec_input_of_not_trap {i : Instr} {s t : State} (hi : ∀ ignored v, i ≠ .trap ignored v)
    (h : exec i s = .next t) :
    (ReadsKbsr i s → t.input = s.input.draw.2) ∧ (¬ ReadsKbsr i s → t.input = s.input) := by
  have hread : ∀ a, (a = kbsr → (s.memRead a).2.input = s.input.draw.2) ∧ (a ≠ kbsr → (s.memRead a).2.input = s.input) :=
    fun a => ⟨fun ha => by rw [s.memRead_input, if_pos ha], fun ha => by rw [s.memRead_input, if_neg ha]⟩
  cases i with
  | trap ignored v => exact absurd rfl (hi ignored v)
  | br n z p off =>
    cases h
    exact ⟨False.elim, fun _ => by split <;> rfl⟩
  | ld dr off => cases h; exact hread (s.pcRel9 off)
  | sti sr off => cases h; exact hread (s.pcRel9 off)
  | ldr dr baseR off => cases h; exact hread (s.baseOffset baseR off)
  | ldi dr off =>
    cases h
    exact ⟨fun hk => (s.ldi_input off).trans (if_pos hk), fun hk => (s.ldi_input off).trans (if_neg hk)⟩
  | addReg | addImm | andReg | andImm | not | lea | st | str | jmp | jsr | jsrr | rti | reserved =>
    cases h
    exact ⟨False.elim, fun _ => rfl⟩

/-- The requests of TRAP, by the shape of its routine. -/
theorem execTrap_draws {ignored : BitVec 4} {v : BitVec 8} {s t : State} (h : execTrap ignored v s = .next t) :
    ∃ n, Draws (InstrAsks (.trap ignored v) s) (IsString (.trap ignored v)) s.input t.input n := by
  have hnone : ¬ WritesString v → ¬ AwaitsChar v → t.input = s.input →
      ∃ n, Draws (InstrAsks (.trap ignored v) s) (IsString (.trap ignored v)) s.input t.input n :=
    fun hstring hawaits hinput => exists_draws_of_request (fun ha => absurd ha (not_instrAsks_trap hstring hawaits)) fun _ => hinput
  rcases execTrap_shapes h with ⟨hv, hold, rfl⟩ | ⟨hv, bytes, hrun⟩ | ⟨rfl, bytes, rfl⟩ | ⟨rfl, rfl⟩ | ⟨hv, f, rfl⟩
  · obtain ⟨-, -, -, -, -, hinput, -⟩ := s.link.awaitChar_frame hold
    exact exists_draws_of_request (fun _ => hinput) fun hn => absurd (instrAsks_trap.mpr (.inr hv)) hn
  · have hasks : InstrAsks (.trap ignored v) s ↔ s.link.NoZeroBeforeKbsr (s.reg 0#3) :=
      instrAsks_trap.trans ((or_iff_left (not_awaitsChar_of_writesString hv)).trans (and_iff_right hv))
    have hstring : IsString (.trap ignored v) := ⟨ignored, v, rfl, hv⟩
    by_cases hz : s.link.NoZeroBeforeKbsr (s.reg 0#3)
    · obtain ⟨n, hn, hmoved⟩ := hrun.polls hz
      exact ⟨n, hmoved, fun _ => hn, fun hnot => absurd (hasks.mpr hz) hnot, fun hnot => absurd hstring hnot⟩
    · exact ⟨0, (hrun.plain hz).1, fun ha => absurd (hasks.mp ha) hz, fun _ => rfl, fun _ => Nat.zero_le 1⟩
  · exact hnone (by unfold WritesString; decide) (by unfold AwaitsChar; decide) rfl
  · exact hnone (by unfold WritesString; decide) (by unfold AwaitsChar; decide) rfl
  · refine hnone ?_ ?_ rfl <;> rintro (rfl | rfl) <;> cases hv

theorem exec_draws {i : Instr} {s t : State} (h : exec i s = .next t) :
    ∃ n, Draws (InstrAsks i s) (IsString i) s.input t.input n := by
  by_cases hi : ∀ ignored v, i ≠ .trap ignored v
  · obtain ⟨hasked, hunasked⟩ := exec_input_of_not_trap hi h
    have hasks : InstrAsks i s ↔ ReadsKbsr i s := or_iff_left fun ⟨ignored, v, htrap, _⟩ => hi ignored v htrap
    exact exists_draws_of_request (fun ha => hasked (hasks.mp ha)) fun hn => hunasked fun hr => hn (hasks.mpr hr)
  · push Not at hi
    obtain ⟨ignored, v, rfl⟩ := hi
    exact execTrap_draws h

/-! ## Steps -/

theorem State.fetch_input (s : State) : s.fetch.2.input = if s.pc = kbsr then s.input.draw.2 else s.input :=
  s.memRead_input s.pc

/-- A fetch at KBSR gives an RTI or a BR, which ask for nothing: the fetch makes the one request. -/
theorem exec_fetch_kbsr_input {s t : State} (hpc : s.pc = kbsr) (h : exec (decode s.fetch.1) s.fetch.2 = .next t) :
    t.input = s.input.draw.2 := by
  have hfetch : s.fetch.2.input = s.input.draw.2 := by rw [s.fetch_input, if_pos hpc]
  have hword : s.fetch.1 = 0x8000#16 ∨ s.fetch.1 = 0x0000#16 := by
    rw [State.fetch, hpc]
    exact s.memRead_kbsr_word
  have hdecode : decode s.fetch.1 = .rti 0 ∨ decode s.fetch.1 = .br false false false 0 :=
    hword.imp (fun hw => by rw [hw]; decide) (fun hw => by rw [hw]; decide)
  rcases hdecode with hd | hd <;> rw [hd] at h <;> exact ((exec_input_of_not_trap (by simp) h).2 id).trans hfetch

/-- Where nothing holds and the fetch does not poll, a step asks where its instruction does. -/
theorem asksForInput_iff_instrAsks {s : State} (hhold : s.hold = none) (hpc : s.pc ≠ kbsr) :
    AsksForInput s ↔ InstrAsks (decode s.fetch.1) s.fetch.2 :=
  (or_iff_right (not_not_intro hhold)).trans (or_iff_right hpc)

/-- The requests of a step: a hold makes one, a fetch at KBSR makes one and its instruction none, any other step those of its
instruction. -/
theorem step_draws {s t : State} (h : step s = .next t) :
    ∃ n, Draws (AsksForInput s) (IsString (decode (s.memRead s.pc).1)) s.input t.input n := by
  rcases step_cases h with ⟨hold, hphase, rfl⟩ | ⟨hphase, hexec⟩
  · obtain ⟨-, -, hhold⟩ := State.phase_waiting.mp hphase
    obtain ⟨-, -, -, -, -, hinput, -⟩ := s.awaitChar_frame hold
    have hasks : AsksForInput s := .inl (by simp [hhold])
    exact exists_draws_of_request (fun _ => hinput) fun hn => absurd hasks hn
  · obtain ⟨-, -, hhold⟩ := State.phase_fetching.mp hphase
    by_cases hpc : s.pc = kbsr
    · have hasks : AsksForInput s := .inr (.inl hpc)
      exact exists_draws_of_request (fun _ => exec_fetch_kbsr_input hpc hexec) fun hn => absurd hasks hn
    · obtain ⟨n, hn⟩ := exec_draws hexec
      rw [← asksForInput_iff_instrAsks hhold hpc, s.fetch_input, if_neg hpc] at hn
      exact ⟨n, hn⟩

end Sys2Proof.Machine

namespace Sys2Proof.Proofs

open Sys2Proof.Machine Sys2Proof.Spec

/-- Settles O28: the answers a step takes are those of its requests, and `n` requests drop the first `n` answers. -/
theorem inputStreamOnlyAdvances : Obligations.InputStreamOnlyAdvances := by
  refine ⟨fun _ _ _ => rfl, fun _ => rfl, fun s t h => ?_⟩
  obtain ⟨n, hmoved, hasked, hunasked, honce⟩ := step_draws h
  rw [InputAgent.draw_iterate] at hmoved
  refine ⟨n, by rw [hmoved], by rw [hmoved], hasked, hunasked, fun hno => honce ?_⟩
  rintro ⟨ignored, v, hdecode, hv⟩
  obtain ⟨hputs, hputsp⟩ := hno ignored v hdecode
  exact hv.elim hputs hputsp

end Sys2Proof.Proofs
end

section
/-! The Memory Unit (20_memory.md): the two ends of a read of KBSR, which words a read or an instruction leaves alone, and a store that
the next fetch sees. -/

namespace Sys2Proof.Machine

open Sys2Proof.Spec

/-! ## A read of KBSR -/

/-- With a character ready the two keyboard registers are stored to (20_memory.md R56). -/
theorem State.memRead_kbsr_of_char {s : State} {c : Byte} (h : s.input.draw.1 = some c) :
    s.memRead kbsr = (0x8000#16, ((s.setInput s.input.draw.2).memWrite kbsr 0x8000#16).memWrite kbdr (charWord c)) := by
  rw [s.memRead_kbsr, h]
  simp [State.pollKeyboard, State.poll, h]

/-- With none ready only KBSR is stored to (20_memory.md R56). -/
theorem State.memRead_kbsr_of_none {s : State} (h : s.input.draw.1 = none) :
    s.memRead kbsr = (0x0000#16, (s.setInput s.input.draw.2).memWrite kbsr 0x0000#16) := by
  rw [s.memRead_kbsr, h]
  simp [State.pollKeyboard, State.poll, h]

theorem State.memRead_kbsr_stored (s : State) : (s.memRead kbsr).2.mem.read kbsr = (s.memRead kbsr).1 := by
  simp [State.memRead]

/-- A poll that finds a character leaves it in KBDR, whatever stood there. -/
theorem State.memRead_kbsr_kbdr {s : State} {c : Byte} (h : s.input.draw.1 = some c) :
    (s.memRead kbsr).2.mem.read kbdr = charWord c := by
  simp [State.memRead_kbsr_of_char h]

/-- A poll that finds none rewrites KBSR alone. -/
theorem State.keepsMemoryBut_memRead_kbsr {s : State} (h : s.input.draw.1 = none) :
    KeepsMemoryBut kbsr s (s.memRead kbsr).2 := by
  rw [State.memRead_kbsr_of_none h]
  exact fun _ ha => s.mem.read_write_ne 0x0000#16 ha

/-! ## What a read, a store and an instruction leave alone -/

theorem State.onlyStore_memWrite (s : State) (a v : Word) : OnlyStore a v s (s.memWrite a v) :=
  ⟨s.mem.read_write_same a v, fun _ hb => s.mem.read_write_ne v hb, fun _ _ => rfl, rfl, rfl, ⟨rfl, rfl, rfl⟩, rfl, rfl⟩

/-- A read leaves a word alone, KBSR and KBDR too unless it is of KBSR. -/
theorem State.memRead_keeps_word {s : State} {a b : Word} (h : a = kbsr → b ≠ kbsr ∧ b ≠ kbdr) :
    (s.memRead a).2.mem.read b = s.mem.read b := by
  by_cases ha : a = kbsr
  · obtain ⟨hkbsr, hkbdr⟩ := h ha
    exact s.memRead_read hkbsr hkbdr
  · rw [s.memRead_plain ha]

/-- The two reads of LDI: where the first is plain, the second is at the pointer that stands in memory. -/
theorem State.ldi_reads_keep_word {s : State} {off : BitVec 9} {b : Word}
    (h : s.pcRel9 off = kbsr ∨ s.mem.read (s.pcRel9 off) = kbsr → b ≠ kbsr ∧ b ≠ kbdr) :
    ((s.readPointer off).2.memRead (s.readPointer off).1).2.mem.read b = s.mem.read b := by
  have hsecond : (s.readPointer off).1 = kbsr → b ≠ kbsr ∧ b ≠ kbdr := fun hp => by
    by_cases hfirst : s.pcRel9 off = kbsr
    · exact h (.inl hfirst)
    · rw [State.readPointer, s.memRead_plain hfirst] at hp
      exact h (.inr hp)
  calc ((s.readPointer off).2.memRead (s.readPointer off).1).2.mem.read b
      = (s.readPointer off).2.mem.read b := State.memRead_keeps_word hsecond
    _ = s.mem.read b := State.memRead_keeps_word fun hfirst => h (.inl hfirst)

/-- A TRAP changes memory only by the polls of a string that reaches KBSR. -/
theorem execTrap_keeps_word {ignored : BitVec 4} {v : BitVec 8} {s t : State} {b : Word} (h : execTrap ignored v s = .next t)
    (hb : ReadsKbsr (.trap ignored v) s → b ≠ kbsr ∧ b ≠ kbdr) : t.mem.read b = s.mem.read b := by
  rcases execTrap_shapes h with ⟨-, hold, rfl⟩ | ⟨hv, bytes, hrun⟩ | ⟨-, bytes, rfl⟩ | ⟨-, rfl⟩ | ⟨-, f, rfl⟩
  · obtain ⟨-, -, -, -, hmem, -⟩ := s.link.awaitChar_frame hold
    rw [hmem, State.link_mem]
  · by_cases hz : s.link.NoZeroBeforeKbsr (s.reg 0#3)
    · obtain ⟨-, -, -, -, -, -, -, hmem, -⟩ := hrun.frame
      obtain ⟨hkbsr, hkbdr⟩ := hb ⟨hv, hz⟩
      exact hmem b hkbsr hkbdr
    · rw [(hrun.plain hz).2, State.link_mem]
  · rfl
  · rfl
  · rfl

/-! ## A store and the fetch after it -/

/-- A store to the word at PC is what the next fetch reads, but at KBSR. -/
theorem State.memRead_pc_memWrite {s : State} {a : Word} (v : Word) (hpc : s.pc = a) (ha : a ≠ kbsr) :
    (s.memWrite a v).pc = a ∧ ((s.memWrite a v).memRead (s.memWrite a v).pc).1 = v := by
  subst hpc
  refine ⟨rfl, ?_⟩
  rw [State.memWrite_pc, State.memRead_plain _ ha]
  exact s.mem.read_write_same s.pc v

/-- The step of a state that fetches is its instruction, at the state the fetch leaves (70_reset_and_hazards.md R244). -/
theorem exec_fetched_of_step {s t : State} {i : Instr} (hrunning : s.running = true) (hfault : s.fault = none)
    (hhold : s.hold = none) (h : step s = .next t) (hdecode : decode (s.memRead s.pc).1 = i) : exec i (fetched s) = .next t := by
  subst hdecode
  exact (step_fetching (State.phase_fetching.mpr ⟨hfault, hrunning, hhold⟩)).symm.trans h

end Sys2Proof.Machine

namespace Sys2Proof.Proofs

open Sys2Proof.Machine Sys2Proof.Spec

/-- Settles O9: only KBSR is special (20_memory.md R55). -/
theorem plainReadIsPure : Obligations.PlainReadIsPure := fun s _ ha => s.memRead_plain ha

/-- Settles O11, from the laws of a memory write. -/
theorem writeStoresTheWord : Obligations.WriteStoresTheWord := fun s a v => s.onlyStore_memWrite a v

/-- Settles O10: the memory clauses from the stores of each answer, the rest from the frame of a read. -/
theorem keyboardStatusReadPolls : Obligations.KeyboardStatusReadPolls := by
  intro s
  refine ⟨fun c hc => ?_, fun hnone => ?_, s.memRead_input kbsr, fun r _ => s.memRead_reg kbsr r, s.memRead_pc kbsr,
    s.memRead_cond kbsr, ⟨s.memRead_running kbsr, s.memRead_fault kbsr, s.memRead_hold kbsr⟩, s.memRead_output kbsr⟩
  · have hword : (s.memRead kbsr).1 = 0x8000#16 := congrArg Prod.fst (State.memRead_kbsr_of_char hc)
    exact ⟨hword, s.memRead_kbsr_stored.trans hword, State.memRead_kbsr_kbdr hc, fun a hkbsr hkbdr => s.memRead_read hkbsr hkbdr⟩
  · have hword : (s.memRead kbsr).1 = 0x0000#16 := congrArg Prod.fst (State.memRead_kbsr_of_none hnone)
    exact ⟨hword, s.memRead_kbsr_stored.trans hword, State.keepsMemoryBut_memRead_kbsr hnone⟩

/-- Settles O12: a poll looks at the agent and not at what is stored. -/
theorem storesToKeyboardRegisters : Obligations.StoresToKeyboardRegisters := by
  intro s v
  have hplain : (s.memWrite kbdr v).memRead kbdr = (v, s.memWrite kbdr v) := by
    simp [State.memRead_plain _ kbdr_ne_kbsr]
  have hword : ((s.memWrite kbsr v).memRead kbsr).1 = (s.memRead kbsr).1 := by
    rw [State.memRead_kbsr, State.memRead_kbsr, State.memWrite_input]
  exact ⟨hplain, s.mem.read_write_same kbsr v, hword, (State.memRead_kbsr_stored _).trans hword,
    fun c hc => State.memRead_kbsr_kbdr (s := s.memWrite kbdr v) hc⟩

/-- Settles O26: the loads, STI and the strings by their reads, the stores by the word they write. -/
theorem onlyStoresAndPollsChangeMemory : Obligations.OnlyStoresAndPollsChangeMemory := by
  intro i s t a h hstore hpoll
  cases i with
  | ld | ldr => cases h; exact State.memRead_keeps_word hpoll
  | ldi => cases h; exact State.ldi_reads_keep_word hpoll
  | st | str => cases h; exact s.mem.read_write_ne _ fun ha => hstore (congrArg some ha.symm)
  | sti sr off =>
    cases h
    have hpointer : a ≠ (s.readPointer off).1 := fun ha => hstore (congrArg some ha.symm)
    exact (Memory.read_write_ne _ _ hpointer).trans (State.memRead_keeps_word hpoll)
  | trap ignored v => exact execTrap_keeps_word h hpoll
  | br n z p off =>
    cases h
    split <;> rfl
  | addReg | addImm | andReg | andImm | not | lea | jmp | jsr | jsrr | rti | reserved => cases h; rfl

/-- Settles O29: each store goes to the word PC names after the fetch, and no read before it changes a register or PC. -/
theorem storeIsSeenByTheNextFetch : Obligations.StoreIsSeenByTheNextFetch := by
  intro s t sr hrunning hfault hhold h hnext
  have hexec : ∀ i, decode (s.memRead s.pc).1 = i → exec i (fetched s) = .next t :=
    fun _ => exec_fetched_of_step hrunning hfault hhold h
  have hreg : ∀ r, (fetched s).reg r = s.reg r := s.memRead_reg s.pc
  refine ⟨fun hst => ?_, fun baseR off hstr haddr => ?_, fun off hsti hpointer => ?_⟩
  · cases hexec _ hst
    have haddr : (fetched s).pcRel9 0 = s.pc + 1 := BitVec.add_zero (s.pc + 1)
    rw [haddr, hreg]
    exact State.memRead_pc_memWrite _ rfl hnext
  · cases hexec _ hstr
    have haddr' : (fetched s).baseOffset baseR off = s.pc + 1 := by rw [State.baseOffset, hreg]; exact haddr
    rw [haddr', hreg]
    exact State.memRead_pc_memWrite _ rfl hnext
  · cases hexec _ hsti
    have hreg' : ((fetched s).readPointer off).2.reg sr = s.reg sr := ((fetched s).memRead_reg _ sr).trans (hreg sr)
    have haddr : ((fetched s).readPointer off).1 = s.pc + 1 := hpointer
    rw [haddr, hreg']
    exact State.memRead_pc_memWrite _ ((fetched s).memRead_pc _) hnext

end Sys2Proof.Proofs
end

section
/-! The row of a word (30_encoding.md R82, R94): the decoder settles it by the opcode and a mode bit, and so does every mask of the table. -/

namespace Sys2Proof

/-! ## The row of a word -/

/-- Rows agree where the opcodes do and, at the opcodes with two rows, the mode bits do. -/
theorem decode_row_congr {ir ir' : Word} (hop : opcodeField ir = opcodeField ir')
    (h5 : opcodeField ir = 0x1#4 ∨ opcodeField ir = 0x5#4 → ir[5] = ir'[5]) (h11 : opcodeField ir = 0x4#4 → ir[11] = ir'[11]) :
    (decode ir).row = (decode ir').row := by
  simp only [decode, ← hop, apply_ite Instr.row]
  simp only [Instr.row]
  by_cases hadd : opcodeField ir = 0x1#4
  · simp [hadd, h5]
  by_cases hand : opcodeField ir = 0x5#4
  · simp [hand, h5]
  by_cases hjsr : opcodeField ir = 0x4#4
  · simp [hjsr, h11]
  -- No other opcode tests a mode bit.
  simp only [hadd, hand, hjsr, if_false]

/-! ## The table -/

/-- The bits of a word some row of the table looks at: the opcode, bit 11 and bit 5. -/
def rowBits (ir : Word) : Word := ir &&& 0xF820#16

/-- The word with the given opcode, bit 11 and bit 5, and 0 elsewhere. -/
def rowWord (op : BitVec 4) (b11 b5 : Bool) : Word := place 12 op ||| place 11 (BitVec.ofBool b11) ||| place 5 (BitVec.ofBool b5)

theorem rowBits_eq_rowWord (ir : Word) : rowBits ir = rowWord (opcodeField ir) ir[11] ir[5] := by
  ext k hk
  simp only [rowBits, rowWord, opcodeField, place, BitVec.getElem_and, BitVec.getElem_or, BitVec.getElem_shiftLeft,
    BitVec.getElem_setWidth]
  interval_cases k <;> simp

theorem opcodeField_rowBits (ir : Word) : opcodeField (rowBits ir) = opcodeField ir := by
  ext k hk
  simp only [opcodeField, rowBits, BitVec.getElem_extractLsb', BitVec.getLsbD_and]
  interval_cases k <;> simp

theorem decode_row_rowBits (ir : Word) : (decode (rowBits ir)).row = (decode ir).row :=
  decode_row_congr (opcodeField_rowBits ir) (fun _ => by simp [rowBits]) (fun _ => by simp [rowBits])

/-- A row whose mask lies in `rowBits` matches by them alone. -/
theorem EncodingRow.matchesWord_rowBits {row : EncodingRow} (hmask : rowBits row.mask = row.mask) (ir : Word) :
    row.matchesWord (rowBits ir) = row.matchesWord ir := by
  have hand : rowBits ir &&& row.mask = ir &&& row.mask := by
    rw [rowBits, BitVec.and_assoc, BitVec.and_comm _ row.mask]
    exact congrArg (ir &&& ·) hmask
  simp only [EncodingRow.matchesWord, hand]

theorem opcodeTable_mask : ∀ row ∈ opcodeTable, rowBits row.mask = row.mask := by decide

theorem opcodeTable_filter_rowWord : ∀ (op : BitVec 4) (b11 b5 : Bool),
    opcodeTable.filter (fun row => row.matchesWord (rowWord op b11 b5)) = [(decode (rowWord op b11 b5)).row] := by decide

/-- The rows a word matches are those its opcode and mode bits match. -/
theorem opcodeTable_filter (ir : Word) : opcodeTable.filter (fun row => row.matchesWord ir) = [(decode ir).row] :=
  calc opcodeTable.filter (fun row => row.matchesWord ir)
      = opcodeTable.filter (fun row => row.matchesWord (rowBits ir)) :=
        List.filter_congr fun row hrow => (EncodingRow.matchesWord_rowBits (opcodeTable_mask row hrow) ir).symm
    _ = [(decode (rowBits ir)).row] := by
        rw [rowBits_eq_rowWord]
        exact opcodeTable_filter_rowWord _ _ _
    _ = [(decode ir).row] := by rw [decode_row_rowBits]

end Sys2Proof

namespace Sys2Proof.Proofs

/-- Settles O3: the rows look at the opcode and two mode bits, and over these the table is finite. -/
theorem everyWordHasExactlyOneRow : Obligations.EveryWordHasExactlyOneRow :=
  ⟨opcodeTable_filter, fun _ _ => decode_row_congr⟩

end Sys2Proof.Proofs
end

section
/-! Which instructions record a fault, with what record, and which words they are (30_encoding.md R96, 60_exceptions.md R211). -/

namespace Sys2Proof.Machine

/-! ## The fault of an instruction -/

theorem causeOf_trap (ignored : BitVec 4) (v : BitVec 8) :
    causeOf (.trap ignored v) = if (routineOf v).isSome then none else some .badTrapVector := by
  rw [routineOf_isSome]
  rfl

/-- An illegal instruction raises its cause, after the link where it is a TRAP (43_trap_system.md R182, R196, R197). -/
theorem exec_of_cause {i : Instr} {cause : FaultCause} (hi : causeOf i = some cause) (s : State) :
    ∃ u, (u = s ∨ u = s.link) ∧ exec i s = .next (u.raise cause (encode i)) := by
  cases i with
  | rti | reserved => cases hi; exact ⟨s, .inl rfl, rfl⟩
  | trap ignored v =>
    rw [causeOf_trap] at hi
    split at hi
    · cases hi
    · next hv =>
      cases hi
      have hunknown : routineOf v = none := by simpa using hv
      exact ⟨s.link, .inr rfl, by simp [exec, execTrap, hunknown]⟩
  | _ => cases hi

/-- A TRAP whose vector selects a routine records no fault. -/
theorem execTrap_fault_of_routine {ignored : BitVec 4} {v : BitVec 8} {s t : State} (h : execTrap ignored v s = .next t)
    (hv : routineOf v ≠ none) : t.fault = s.fault := by
  rcases execTrap_shapes h with ⟨-, hold, rfl⟩ | ⟨-, bytes, hrun⟩ | ⟨-, bytes, rfl⟩ | ⟨-, rfl⟩ | ⟨hnone, -⟩
  · obtain ⟨-, -, -, hfault, -⟩ := s.link.awaitChar_frame hold
    exact hfault
  · obtain ⟨-, -, -, -, hfault, -⟩ := hrun.frame
    exact hfault
  · rfl
  · rfl
  · exact absurd hnone hv

/-- A legal instruction records no fault. -/
theorem exec_fault_of_legal {i : Instr} {s t : State} (h : exec i s = .next t) (hi : causeOf i = none) : t.fault = s.fault := by
  cases i with
  | trap ignored v => exact execTrap_fault_of_routine h fun hv => by simp [causeOf_trap, hv] at hi
  | br n z p off =>
    cases h
    split <;> rfl
  | ld | ldi | ldr => cases h; simp [State.loadResult, State.readPointer]
  | sti => cases h; simp [State.readPointer]
  | addReg | addImm | st | jsr | jsrr | andReg | andImm | str | not | jmp | lea => cases h; rfl
  | rti | reserved => cases hi

/-- From a state without a record, exactly the illegal instructions leave one. -/
theorem exec_records_fault_iff {i : Instr} {s : State} (hs : s.fault = none) :
    (∃ t, exec i s = .next t ∧ t.fault ≠ none) ↔ causeOf i ≠ none := by
  constructor
  · rintro ⟨t, h, ht⟩ hi
    exact ht ((exec_fault_of_legal h hi).trans hs)
  · intro hi
    obtain ⟨cause, hcause⟩ := Option.ne_none_iff_exists'.mp hi
    obtain ⟨u, -, h⟩ := exec_of_cause hcause s
    exact ⟨_, h, by simp [State.raise]⟩

/-! ## The illegal words -/

/-- The cause a word faults with, by its opcode and vector. -/
theorem causeOf_decode (ir : Word) :
    causeOf (decode ir) =
      if opcodeField ir = 0x8#4 then some .rtiOpcode
      else if opcodeField ir = 0xD#4 then some .reservedOpcode
      else if opcodeField ir = 0xF#4 ∧ ¬ knownVector (vectorField ir) then some .badTrapVector
      else none := by
  simp only [decode, apply_ite causeOf]
  simp only [causeOf, ite_self]
  generalize opcodeField ir = op
  generalize knownVector (vectorField ir) = known
  revert op known
  decide

theorem causeOf_decode_ne_none (ir : Word) :
    causeOf (decode ir) ≠ none ↔
      opcodeField ir = 0x8#4 ∨ opcodeField ir = 0xD#4 ∨ (opcodeField ir = 0xF#4 ∧ ¬ knownVector (vectorField ir)) := by
  rw [causeOf_decode]
  split_ifs <;> simp_all

theorem knownVector_iff (v : BitVec 8) : knownVector v ↔ 0x20 ≤ v.toNat ∧ v.toNat ≤ 0x25 := by
  simp [knownVector]

end Sys2Proof.Machine

namespace Sys2Proof.Proofs

open Sys2Proof.Machine

/-- Settles O5: the instructions that leave a record are those with a cause, and these are the words of the three classes. -/
theorem threeIllegalClassesFault : Obligations.ThreeIllegalClassesFault := by
  intro ir s hs
  rw [exec_records_fault_iff hs, causeOf_decode_ne_none, knownVector_iff]
  rfl

end Sys2Proof.Proofs
end

section
/-! The operate instructions: which words they are (30_encoding.md R82, R84, R85) and what they leave (40_operate.md R110-R114). -/

namespace Sys2Proof

/-! ## The words -/

theorem decode_addReg {ir : Word} (hop : opcodeField ir = 0x1#4) (hmode : ir[5] = false) :
    decode ir = .addReg (drField ir) (baseField ir) (ir.extractLsb' 3 2) (sr2Field ir) := by
  simp [decode, hop, hmode]

theorem decode_addImm {ir : Word} (hop : opcodeField ir = 0x1#4) (hmode : ir[5] = true) :
    decode ir = .addImm (drField ir) (baseField ir) (imm5Field ir) := by
  simp [decode, hop, hmode]

theorem decode_andReg {ir : Word} (hop : opcodeField ir = 0x5#4) (hmode : ir[5] = false) :
    decode ir = .andReg (drField ir) (baseField ir) (ir.extractLsb' 3 2) (sr2Field ir) := by
  simp [decode, hop, hmode]

theorem decode_andImm {ir : Word} (hop : opcodeField ir = 0x5#4) (hmode : ir[5] = true) :
    decode ir = .andImm (drField ir) (baseField ir) (imm5Field ir) := by
  simp [decode, hop, hmode]

theorem decode_not {ir : Word} (hop : opcodeField ir = 0x9#4) :
    decode ir = .not (drField ir) (baseField ir) (offset6Field ir) := by
  simp [decode, hop]

end Sys2Proof

namespace Sys2Proof.Machine

open Sys2Proof.Spec

/-! ## The result write -/

/-- The result write changes DR and COND alone (10_state.md R27). -/
theorem State.onlyResult_writeResult (s : State) (dr : Reg) (v : Word) : OnlyResult dr v s (s.writeResult dr v) :=
  ⟨s.reg_writeResult_same dr v, rfl, keepsRegsBut_writeResult s dr v, rfl, fun _ => rfl, ⟨rfl, rfl, rfl⟩, rfl, rfl⟩

end Sys2Proof.Machine

namespace Sys2Proof.Proofs

open Sys2Proof.Machine

/-- Settles O31: the word is ADD in register mode, and that writes the sum of two registers read before the write. -/
theorem addRegister : Obligations.AddRegister := by
  intro ir s hop hmode
  rw [decode_addReg hop hmode]
  exact ⟨_, rfl, s.onlyResult_writeResult _ _⟩

/-- Settles O32: the word is ADD in immediate mode, and that writes the sum with the sign-extended imm5. -/
theorem addImmediate : Obligations.AddImmediate := by
  intro ir s hop hmode
  rw [decode_addImm hop hmode]
  exact ⟨_, rfl, s.onlyResult_writeResult _ _⟩

/-- Settles O33: the word is AND in register mode, and that writes the conjunction of two registers read before the write. -/
theorem andRegister : Obligations.AndRegister := by
  intro ir s hop hmode
  rw [decode_andReg hop hmode]
  exact ⟨_, rfl, s.onlyResult_writeResult _ _⟩

/-- Settles O34: the word is AND in immediate mode, and that writes the conjunction with the sign-extended imm5. -/
theorem andImmediate : Obligations.AndImmediate := by
  intro ir s hop hmode
  rw [decode_andImm hop hmode]
  exact ⟨_, rfl, s.onlyResult_writeResult _ _⟩

/-- Settles O35: the word is NOT, whatever its bits 5:0, and that writes the complement of one register. -/
theorem notComplements : Obligations.NotComplements := by
  intro ir s hop
  rw [decode_not hop]
  exact ⟨_, rfl, s.onlyResult_writeResult _ _⟩

end Sys2Proof.Proofs
end

section
/-! Control transfer: which words these instructions are (30_encoding.md R82, R86-R88) and what they leave (41_control.md R130-R134). -/

namespace Sys2Proof

/-! ## The words -/

theorem decode_br {ir : Word} (hop : opcodeField ir = 0x0#4) : decode ir = .br ir[11] ir[10] ir[9] (offset9Field ir) := by
  simp [decode, hop]

theorem decode_jmp {ir : Word} (hop : opcodeField ir = 0xC#4) :
    decode ir = .jmp (drField ir) (baseField ir) (offset6Field ir) := by
  simp [decode, hop]

theorem decode_jsr {ir : Word} (hop : opcodeField ir = 0x4#4) (hmode : ir[11] = true) :
    decode ir = .jsr (offset11Field ir) := by
  simp [decode, hop, hmode]

theorem decode_jsrr {ir : Word} (hop : opcodeField ir = 0x4#4) (hmode : ir[11] = false) :
    decode ir = .jsrr (ir.extractLsb' 9 2) (baseField ir) (offset6Field ir) := by
  simp [decode, hop, hmode]

/-- The three condition bits of BR, side by side, are the field ir[11:9] (41_control.md R130). -/
theorem nzp_append_eq_drField (ir : Word) :
    BitVec.ofBool ir[11] ++ BitVec.ofBool ir[10] ++ BitVec.ofBool ir[9] = drField ir := by
  ext k hk
  simp only [drField, BitVec.getElem_append, BitVec.getElem_extractLsb']
  interval_cases k <;> simp

end Sys2Proof

namespace Sys2Proof.Machine

open Sys2Proof.Spec

/-! ## BR -/

/-- The two tests of 41_control.md R130 agree: the three cases by name, and the mask against COND. -/
theorem taken_iff_drField_and_bits (ir : Word) (c : Cond) :
    taken ir[11] ir[10] ir[9] c ↔ drField ir &&& c.bits ≠ 0#3 := by
  rw [← branchTaken_iff, branchTaken, nzp_append_eq_drField, bne_iff_ne]

theorem exec_br_of_taken {n z p : Bool} {s : State} (off : BitVec 9) (h : taken n z p s.cond) :
    exec (.br n z p off) s = .next (s.setPc (s.pcRel9 off)) :=
  congrArg Host.Outcome.next (if_pos ((branchTaken_iff n z p s.cond).mpr h))

theorem exec_br_of_not_taken {n z p : Bool} {s : State} (off : BitVec 9) (h : ¬ taken n z p s.cond) :
    exec (.br n z p off) s = .next s :=
  congrArg Host.Outcome.next (if_neg (mt (branchTaken_iff n z p s.cond).mp h))

/-! ## JSR, JSRR and the way back -/

/-- Every call, wherever it goes, writes R7 and PC alone (41_control.md R132, R133). -/
theorem State.link_setPc_frame (s : State) (target : Word) :
    KeepsRegsBut [7] s (s.link.setPc target) ∧ (s.link.setPc target).cond = s.cond ∧ KeepsMemory s (s.link.setPc target) ∧
      KeepsControl s (s.link.setPc target) ∧ KeepsChannels s (s.link.setPc target) :=
  ⟨keepsRegsBut_link s, rfl, fun _ => rfl, ⟨rfl, rfl, rfl⟩, rfl, rfl⟩

theorem exec_jmp (hi : BitVec 3) (baseR : Reg) (lo : BitVec 6) (s : State) :
    exec (.jmp hi baseR lo) s = .next (s.setPc (s.reg baseR)) := rfl

theorem exec_jsr (off : BitVec 11) (s : State) : exec (.jsr off) s = .next (s.link.setPc (s.pcRel11 off)) := rfl

theorem exec_jsrr (hi : BitVec 2) (baseR : Reg) (lo : BitVec 6) (s : State) :
    exec (.jsrr hi baseR lo) s = .next (s.link.setPc (s.link.reg baseR)) := rfl

end Sys2Proof.Machine

namespace Sys2Proof.Proofs

open Sys2Proof.Machine

/-- Settles O30: JSR leaves its return address in R7, and JMP R7 goes to what R7 holds. -/
theorem jumpToR7ReturnsFromCall : Obligations.JumpToR7ReturnsFromCall := by
  intro s off hi lo
  refine ⟨_, exec_jsr off s, fun u hu => ⟨_, exec_jmp hi 7 lo u, ?_⟩⟩
  calc u.reg 7
    _ = s.link.reg 7 := hu
    _ = s.pc := s.link_reg_same

/-- Settles O36: the word is BR with ir[11:9] as its condition, and either outcome is known from the condition. -/
theorem branchOnCondition : Obligations.BranchOnCondition := by
  intro ir s hop
  rw [decode_br hop]
  exact ⟨taken_iff_drField_and_bits ir s.cond, exec_br_of_taken _, exec_br_of_not_taken _⟩

/-- Settles O37: the word is JMP, whatever its bits 11:9 and 5:0. -/
theorem jumpThroughRegister : Obligations.JumpThroughRegister := by
  intro ir s hop
  rw [decode_jmp hop]
  exact exec_jmp _ _ _ s

/-- Settles O38: the word is JSR, a call to the PC-relative target. -/
theorem jumpToSubroutine : Obligations.JumpToSubroutine := by
  intro ir s hop hmode
  rw [decode_jsr hop hmode]
  exact ⟨_, exec_jsr _ s, s.link_reg_same, rfl, s.link_setPc_frame _⟩

/-- Settles O39: the word is JSRR, a call to what BaseR holds after the link, which is the return address where BaseR is R7. -/
theorem jumpToSubroutineRegister : Obligations.JumpToSubroutineRegister := by
  intro ir s hop hmode
  rw [decode_jsrr hop hmode]
  have hother : baseField ir ≠ 7#3 → s.link.reg (baseField ir) = s.reg (baseField ir) := s.link_reg_ne
  have hlink : baseField ir = 7#3 → s.link.reg (baseField ir) = s.pc := fun hbase => hbase ▸ s.link_reg_same
  exact ⟨_, exec_jsrr _ _ _ s, s.link_reg_same, hother, hlink, s.link_setPc_frame _⟩

end Sys2Proof.Proofs
end

section
/-! Loads, LEA and stores: which words they are (30_encoding.md R82, R89, R90) and what they leave (42_load_store.md R151-R157). -/

namespace Sys2Proof

/-! ## The words -/

theorem decode_ld {ir : Word} (hop : opcodeField ir = 0x2#4) : decode ir = .ld (drField ir) (offset9Field ir) := by
  simp [decode, hop]

theorem decode_st {ir : Word} (hop : opcodeField ir = 0x3#4) : decode ir = .st (drField ir) (offset9Field ir) := by
  simp [decode, hop]

theorem decode_ldr {ir : Word} (hop : opcodeField ir = 0x6#4) :
    decode ir = .ldr (drField ir) (baseField ir) (offset6Field ir) := by
  simp [decode, hop]

theorem decode_str {ir : Word} (hop : opcodeField ir = 0x7#4) :
    decode ir = .str (drField ir) (baseField ir) (offset6Field ir) := by
  simp [decode, hop]

theorem decode_ldi {ir : Word} (hop : opcodeField ir = 0xA#4) : decode ir = .ldi (drField ir) (offset9Field ir) := by
  simp [decode, hop]

theorem decode_sti {ir : Word} (hop : opcodeField ir = 0xB#4) : decode ir = .sti (drField ir) (offset9Field ir) := by
  simp [decode, hop]

theorem decode_lea {ir : Word} (hop : opcodeField ir = 0xE#4) : decode ir = .lea (drField ir) (offset9Field ir) := by
  simp [decode, hop]

end Sys2Proof

namespace Sys2Proof.Machine

open Sys2Proof.Spec

/-! ## The end of a load -/

/-- A load leaves its result over what its read left, once the read is known to move memory and the agent alone, and nothing where
it is plain. -/
theorem State.loadResult_spec {s : State} {read : Word × State} {plain : Prop} (dr : Reg)
    (hframe : read.2 = { s with mem := read.2.mem, input := read.2.input }) (hplain : plain → read.2 = s) :
    LoadResult dr read plain s (State.loadResult dr read) := by
  have hregs : ∀ r, read.2.reg r = s.reg r := fun r => by rw [hframe]; rfl
  have hpc : read.2.pc = s.pc := by rw [hframe]
  have hout : read.2.output = s.output := by rw [hframe]
  have hcontrol : KeepsControl s read.2 := by
    rw [hframe]
    exact ⟨rfl, rfl, rfl⟩
  have hkeeps : plain → KeepsMemory s read.2 ∧ read.2.input = s.input := fun hp => by
    rw [hplain hp]
    exact ⟨fun _ => rfl, rfl⟩
  exact ⟨read.2.reg_writeResult_same dr read.1, rfl, keepsRegsBut_loadResult dr hregs, hpc, fun _ => rfl, rfl, hkeeps, hout,
    hcontrol⟩

/-- LD and LDR: one read, plain off KBSR (20_memory.md R55). -/
theorem State.loadResult_memRead (s : State) (dr : Reg) (a : Word) :
    LoadResult dr (s.memRead a) (a ≠ kbsr) s (State.loadResult dr (s.memRead a)) :=
  State.loadResult_spec dr (s.memRead_frame a) fun ha => by rw [s.memRead_plain ha]

/-! ## The two reads of LDI -/

/-- A state that differs from `s` in memory and the agent alone still does after a further read. -/
theorem State.memRead_frame_trans {s t : State} (h : t = { s with mem := t.mem, input := t.input }) (a : Word) :
    (t.memRead a).2 = { s with mem := (t.memRead a).2.mem, input := (t.memRead a).2.input } :=
  (t.memRead_frame a).trans (by rw [h])

/-- LDI: where neither the pointer's cell nor the word in it is KBSR, both reads are plain. -/
theorem State.loadResult_indirect (s : State) (dr : Reg) (a : Word) :
    LoadResult dr ((s.memRead a).2.memRead (s.memRead a).1) (a ≠ kbsr ∧ s.mem.read a ≠ kbsr) s
      (State.loadResult dr ((s.memRead a).2.memRead (s.memRead a).1)) := by
  refine State.loadResult_spec dr (State.memRead_frame_trans (s.memRead_frame a) _) fun ⟨hcell, hpointer⟩ => ?_
  rw [s.memRead_plain hcell, s.memRead_plain hpointer]

/-! ## The store of STI -/

/-- Through a pointer whose cell is not KBSR, STI changes in memory only the word pointed to, and the input agent does not move. -/
theorem State.keepsMemoryBut_memWrite_pointer {s : State} {a : Word} (v : Word) (ha : a ≠ kbsr) :
    KeepsMemoryBut (s.mem.read a) s ((s.memRead a).2.memWrite (s.memRead a).1 v) ∧
      ((s.memRead a).2.memWrite (s.memRead a).1 v).input = s.input := by
  rw [s.memRead_plain ha]
  exact ⟨fun _ hb => s.mem.read_write_ne v hb, rfl⟩

end Sys2Proof.Machine

namespace Sys2Proof.Proofs

open Sys2Proof.Machine Sys2Proof.Spec

/-- Settles O40: the word is LD, one read at the PC-relative address. -/
theorem loadPcRelative : Obligations.LoadPcRelative := by
  rintro ir s _ hop rfl
  rw [decode_ld hop]
  exact ⟨_, rfl, s.loadResult_memRead _ _⟩

/-- Settles O41: the word is LDI, the second read in the state the first left. -/
theorem loadIndirect : Obligations.LoadIndirect := by
  rintro ir s _ hop rfl
  rw [decode_ldi hop]
  exact ⟨_, rfl, s.loadResult_indirect _ _⟩

/-- Settles O42: the word is LDR, one read at an address made from BaseR before the write. -/
theorem loadBaseOffset : Obligations.LoadBaseOffset := by
  rintro ir s _ hop rfl
  rw [decode_ldr hop]
  exact ⟨_, rfl, s.loadResult_memRead _ _⟩

/-- Settles O43: the word is LEA, a result write with no read. -/
theorem loadEffectiveAddress : Obligations.LoadEffectiveAddress := by
  intro ir s hop
  rw [decode_lea hop]
  exact ⟨_, rfl, s.onlyResult_writeResult _ _⟩

/-- Settles O44: the word is ST, one store at the PC-relative address. -/
theorem storePcRelative : Obligations.StorePcRelative := by
  intro ir s hop
  rw [decode_st hop]
  exact ⟨_, rfl, s.onlyStore_memWrite _ _⟩

/-- Settles O45: the word is STI, one store over the state the pointer read left; that read changes no register, so SR is as
before. -/
theorem storeIndirect : Obligations.StoreIndirect := by
  rintro ir s _ hop rfl
  rw [decode_sti hop]
  have hsr : (s.readPointer (offset9Field ir)).2.reg (drField ir) = s.reg (drField ir) := s.memRead_reg _ _
  exact ⟨_, rfl, hsr ▸ State.onlyStore_memWrite _ _ _, fun r _ => s.memRead_reg _ r, s.memRead_pc _, s.memRead_cond _,
    ⟨s.memRead_running _, s.memRead_fault _, s.memRead_hold _⟩, s.memRead_output _, State.keepsMemoryBut_memWrite_pointer _⟩

/-- Settles O46: the word is STR, one store at an address made from BaseR, which the store leaves alone. -/
theorem storeBaseOffset : Obligations.StoreBaseOffset := by
  intro ir s hop
  rw [decode_str hop]
  exact ⟨_, rfl, s.onlyStore_memWrite _ _⟩

end Sys2Proof.Proofs
end

section
/-! TRAP, RTI and the reserved opcode: which words they are (30_encoding.md R91, R92) and what they leave (43_trap_system.md
R180-R197). The string routines are taken through the unbounded loop of the rule, not through the bounded one of the model. -/

namespace Sys2Proof

/-! ## The words -/

theorem decode_rti {ir : Word} (hop : opcodeField ir = 0x8#4) : decode ir = .rti (low12Field ir) := by
  simp [decode, hop]

theorem decode_reserved {ir : Word} (hop : opcodeField ir = 0xD#4) : decode ir = .reserved (low12Field ir) := by
  simp [decode, hop]

theorem decode_trap {ir : Word} (hop : opcodeField ir = 0xF#4) :
    decode ir = .trap (ir.extractLsb' 8 4) (vectorField ir) := by
  simp [decode, hop]

/-- The vector says which TRAP a word is; its bits 11:8 are free (30_encoding.md R91). -/
theorem decode_trap_of_vector {ir : Word} {v : BitVec 8} (hop : opcodeField ir = 0xF#4) (hv : vectorField ir = v) :
    decode ir = .trap (ir.extractLsb' 8 4) v :=
  hv ▸ decode_trap hop

/-- Two fields side by side, each at its place, are one field at the place of the lower. -/
theorem place_or_place_adjacent (ir : Word) (lo m n : Nat) :
    place (lo + n) (ir.extractLsb' (lo + n) m) ||| place lo (ir.extractLsb' lo n) = place lo (ir.extractLsb' lo (n + m)) := by
  ext k hk
  simp only [place, BitVec.getElem_or, BitVec.getElem_shiftLeft, BitVec.getElem_setWidth, BitVec.getLsbD_extractLsb']
  by_cases hlow : k < lo
  · have hhigh : k < lo + n := by omega
    simp [hlow, hhigh]
  · obtain ⟨j, rfl⟩ := Nat.exists_eq_add_of_le (Nat.le_of_not_lt hlow)
    by_cases hj : j < n
    · simp [hj, Nat.lt_add_right m hj]
    · obtain ⟨i, rfl⟩ := Nat.exists_eq_add_of_le (Nat.le_of_not_lt hj)
      simp [Nat.add_sub_add_left, Nat.add_assoc]

theorem place_whole_word (ir : Word) : place 0 (ir.extractLsb' 0 16) = ir := by
  simp [place]

/-- A word of opcode 0x8 or 0xD is its opcode and the low bits the fault keeps (60_exceptions.md R212). -/
theorem place_opcode_or_low12 (ir : Word) : place 12 (opcodeField ir) ||| place 0 (low12Field ir) = ir :=
  (place_or_place_adjacent ir 0 4 12).trans (place_whole_word ir)

theorem place_opcode_or_vector (ir : Word) :
    place 12 (opcodeField ir) ||| place 8 (ir.extractLsb' 8 4) ||| place 0 (vectorField ir) = ir := by
  have hhigh := place_or_place_adjacent ir 8 4 4
  have hall := place_or_place_adjacent ir 0 8 8
  exact (congrArg (· ||| _) hhigh).trans (hall.trans (place_whole_word ir))

theorem encode_rti {ir : Word} (hop : opcodeField ir = 0x8#4) : encode (.rti (low12Field ir)) = ir := by
  rw [encode, ← hop, place_opcode_or_low12]

theorem encode_reserved {ir : Word} (hop : opcodeField ir = 0xD#4) : encode (.reserved (low12Field ir)) = ir := by
  rw [encode, ← hop, place_opcode_or_low12]

theorem encode_trap {ir : Word} (hop : opcodeField ir = 0xF#4) :
    encode (.trap (ir.extractLsb' 8 4) (vectorField ir)) = ir := by
  rw [encode, ← hop, place_opcode_or_vector]

end Sys2Proof

namespace Sys2Proof.Machine

open Sys2Proof.Spec

variable {bytes : Word → List Byte}

/-! ## The routine of each vector -/

theorem exec_trap_getc (ignored : BitVec 4) (s : State) : exec (.trap ignored 0x20) s = .next (s.link.awaitChar .getc) := rfl

theorem exec_trap_out (ignored : BitVec 4) (s : State) :
    exec (.trap ignored 0x21) s = .next (s.link.putBytes [lowByte (s.reg 0)]) := by
  rw [← s.link_reg_ne (q := 0) (by decide)]
  rfl

/-- The prompt is empty (92_eei_decisions.md D16). -/
theorem exec_trap_in (ignored : BitVec 4) (s : State) : exec (.trap ignored 0x23) s = .next (s.link.awaitChar .inEcho) := by
  rw [← s.link.putBytes_nil]
  rfl

theorem exec_trap_halt (ignored : BitVec 4) (s : State) : exec (.trap ignored 0x25) s = .next s.link.halt := rfl

theorem exec_trap_unknown {v : BitVec 8} (hv : routineOf v = none) (ignored : BitVec 4) (s : State) :
    exec (.trap ignored v) s = .next (s.link.raise .badTrapVector (encode (.trap ignored v))) := by
  simp [exec, execTrap, hv]

theorem routineOf_eq_none {v : BitVec 8} (hv : ¬ (0x20 ≤ v.toNat ∧ v.toNat ≤ 0x25)) : routineOf v = none := by
  rw [← knownVector_iff, ← routineOf_isSome] at hv
  simpa using hv

/-! ## The link, and routines that write bytes -/

/-- TRAP with a routine that only writes bytes: R7 and the output change, and nothing else. -/
theorem State.link_putBytes_spec (s : State) (bs : List Byte) :
    Linked s (s.link.putBytes bs) ∧ (s.link.putBytes bs).output = s.output ++ bs ∧ KeepsRegsBut [7] s (s.link.putBytes bs) ∧
      (s.link.putBytes bs).cond = s.cond ∧ (s.link.putBytes bs).input = s.input ∧ KeepsMemory s (s.link.putBytes bs) ∧
      KeepsControl s (s.link.putBytes bs) :=
  ⟨⟨s.link_reg_same, rfl⟩, rfl, keepsRegsBut_link s, rfl, rfl, fun _ => rfl, rfl, rfl, rfl⟩

/-- After HALT without a fault record no step is left (70_reset_and_hazards.md R244, R246). -/
theorem step_ne_next_of_final {s : State} (hs : s.Final) (u : State) : step s ≠ .next u := by
  obtain ⟨why, hphase⟩ := State.phase_final.mpr hs
  simp [step, hphase]

/-! ## Routines that read a character -/

/-- What GETC or IN echoes of its character (43_trap_system.md R186, R189). -/
def echo : Hold → Byte → List Byte
  | .getc, _ => []
  | .inEcho, c => [c]

/-- A request that the agent answers ends the routine with the character (43_trap_system.md R186, R189). -/
theorem State.awaitChar_of_char {s : State} {c : Byte} (h : Hold) (hc : s.input.draw.1 = some c) :
    (s.awaitChar h).reg 0 = charWord c ∧ (s.awaitChar h).cond = classify (charWord c) ∧
      (s.awaitChar h).output = s.output ++ echo h c ∧ (s.awaitChar h).hold = none := by
  have hdeliver : s.awaitChar h = ((s.setInput s.input.draw.2).deliver h c).setHold none := by
    simp [State.awaitChar, State.poll, hc]
  rw [hdeliver]
  cases h with
  | getc => exact ⟨State.reg_writeResult_same _ _ _, rfl, (List.append_nil _).symm, rfl⟩
  | inEcho => exact ⟨State.reg_writeResult_same _ _ _, rfl, rfl, rfl⟩

/-- TRAP with a routine that gets its character: R7, R0, COND, the agent and the output change, and any hold ends. -/
theorem State.link_awaitChar_spec {s : State} {c : Byte} (h : Hold) (hc : s.input.draw.1 = some c) :
    Linked s (s.link.awaitChar h) ∧ (s.link.awaitChar h).reg 0 = charWord c ∧
      (s.link.awaitChar h).cond = classify (charWord c) ∧ (s.link.awaitChar h).input = s.input.draw.2 ∧
      (s.link.awaitChar h).output = s.output ++ echo h c ∧ (s.link.awaitChar h).hold = none ∧
      KeepsRegsBut [0, 7] s (s.link.awaitChar h) ∧ KeepsMemory s (s.link.awaitChar h) ∧
      (s.link.awaitChar h).running = s.running ∧ (s.link.awaitChar h).fault = s.fault := by
  obtain ⟨hchar, hcond, hout, hhold⟩ := State.awaitChar_of_char (s := s.link) h hc
  obtain ⟨hreg, hpc, hrunning, hfault, hmem, hinput, -⟩ := s.link.awaitChar_frame h
  have hregs : KeepsRegsBut [0, 7] s (s.link.awaitChar h) := fun r hr => by
    obtain ⟨h0, h7⟩ : r ≠ 0 ∧ r ≠ 7 := by simpa using hr
    exact (hreg r h0).trans (s.link_reg_ne h7)
  exact ⟨⟨(hreg 7 (by decide)).trans s.link_reg_same, hpc⟩, hchar, hcond, hinput, hout, hhold, hregs,
    fun a => congrArg (·.read a) hmem, hrunning, hfault⟩

/-! ## Routines that write a string -/

/-- The rule asks for a non-zero high byte, the definition for a zero one (43_trap_system.md R190). -/
theorem putspBytes_eq : putspBytes = fun w =>
    if w.extractLsb' 8 8 ≠ (0 : Byte) then [w.extractLsb' 0 8, w.extractLsb' 8 8] else [w.extractLsb' 0 8] := by
  funext w
  exact (ite_not (w.extractLsb' 8 8 = (0 : Byte)) _ _).symm

theorem putspBytes_eq_append : putspBytes = fun w =>
    [w.extractLsb' 0 8] ++ if w.extractLsb' 8 8 = (0 : Byte) then [] else [w.extractLsb' 8 8] := by
  funext w
  rw [apply_ite ([w.extractLsb' 0 8] ++ ·)]
  rfl

/-- The bounded loop returns what the unbounded one does. -/
theorem State.stringLoop_eq_some_iff {a : Word} {s t : State} :
    State.stringLoop bytes s.stringFuel a s = some t ↔ StringRun bytes a s t :=
  ⟨State.run_of_stringLoop, State.stringLoop_of_run⟩

theorem State.stringLoop_eq_none_iff {a : Word} {s : State} :
    State.stringLoop bytes s.stringFuel a s = none ↔ ∀ t, ¬ StringRun bytes a s t := by
  simp only [Option.eq_none_iff_forall_ne_some, ne_eq, State.stringLoop_eq_some_iff]

theorem outcomeOfString_fault {o : Option State} : outcomeOfString o = .fault .routineNeverReturns ↔ o = none := by
  cases o <;> simp [outcomeOfString]

theorem exec_trap_puts (ignored : BitVec 4) (s : State) :
    exec (.trap ignored 0x22) s = outcomeOfString (State.stringLoop putsBytes s.link.stringFuel (s.reg 0) s.link) := by
  rw [← s.link_reg_ne (q := 0) (by decide)]
  rfl

theorem exec_trap_putsp (ignored : BitVec 4) (s : State) :
    exec (.trap ignored 0x24) s = outcomeOfString (State.stringLoop putspBytes s.link.stringFuel (s.reg 0) s.link) := by
  rw [← s.link_reg_ne (q := 0) (by decide)]
  rfl

theorem exec_trap_puts_iff {ignored : BitVec 4} {s t : State} :
    exec (.trap ignored 0x22) s = .next t ↔ StringRun putsBytes (s.reg 0) s.link t := by
  rw [exec_trap_puts, outcomeOfString_next, State.stringLoop_eq_some_iff]

theorem exec_trap_putsp_iff {ignored : BitVec 4} {s t : State} :
    exec (.trap ignored 0x24) s = .next t ↔ StringRun putspBytes (s.reg 0) s.link t := by
  rw [exec_trap_putsp, outcomeOfString_next, State.stringLoop_eq_some_iff]

/-- A string loop after the link: of the registers only R7 changes, and COND and the termination state stay. -/
theorem StringRun.link_frame {a : Word} {s t : State} (h : StringRun bytes a s.link t) :
    Linked s t ∧ KeepsRegsBut [7] s t ∧ t.cond = s.cond ∧ KeepsControl s t := by
  obtain ⟨hreg, hpc, hcond, hrunning, hfault, hhold, -⟩ := h.frame
  exact ⟨⟨(hreg 7).trans s.link_reg_same, hpc⟩, fun r hr => (hreg r).trans (keepsRegsBut_link s r hr), hcond, hrunning, hfault,
    hhold⟩

/-! ## Strings in plain memory -/

/-- The words stand in memory from `a`, none of them is 0x0000, a 0x0000 follows, and no cell of these is KBSR. -/
def Memory.HoldsString (m : Memory) : Word → List Word → Prop
  | a, [] => m.read a = 0x0000#16 ∧ a ≠ kbsr
  | a, w :: ws => m.read a = w ∧ w ≠ 0x0000#16 ∧ a ≠ kbsr ∧ m.HoldsString (a + 1#16) ws

/-- The words of a string may be given by their distance from its address. -/
theorem Memory.holdsString_of_getElem {m : Memory} {a : Word} {ws : List Word}
    (hws : ∀ k (hk : k < ws.length), m.read (a + BitVec.ofNat 16 k) = ws[k] ∧ ws[k] ≠ 0 ∧ a + BitVec.ofNat 16 k ≠ kbsr)
    (hend : m.read (a + BitVec.ofNat 16 ws.length) = 0) (hplain : a + BitVec.ofNat 16 ws.length ≠ kbsr) :
    m.HoldsString a ws := by
  induction ws generalizing a with
  | nil => exact ⟨by simpa using hend, by simpa using hplain⟩
  | cons w ws ih =>
    obtain ⟨hread, hne, hcell⟩ := by simpa using hws 0 (Nat.zero_lt_succ _)
    refine ⟨hread, hne, hcell, ih (fun k hk => ?_) ?_ ?_⟩
    · rw [add_one_add_ofNat]
      exact hws (k + 1) (Nat.succ_lt_succ hk)
    · rwa [add_one_add_ofNat]
    · rwa [add_one_add_ofNat]

/-- The loop writes a string in plain memory out, and changes nothing else. -/
theorem StringRun.of_holdsString (bytes : Word → List Byte) {a : Word} {ws : List Word} {s : State}
    (h : s.mem.HoldsString a ws) : StringRun bytes a s (s.putBytes (ws.flatMap bytes)) := by
  induction ws generalizing a s with
  | nil =>
    obtain ⟨hzero, ha⟩ := h
    rw [List.flatMap_nil, s.putBytes_nil]
    have hread : s.memRead a = (0x0000#16, s) := hzero ▸ s.memRead_plain ha
    have hstop : StringRun bytes a s (s.memRead a).2 := .stop (by rw [hread])
    rwa [hread] at hstop
  | cons w ws ih =>
    obtain ⟨hw, hne, ha, hrest⟩ := h
    have hread : s.memRead a = (w, s) := hw ▸ s.memRead_plain ha
    have hrun := ih (s := s.putBytes (bytes w)) hrest
    refine .emit (by rwa [hread]) ?_
    rw [hread, List.flatMap_cons]
    simpa [State.putBytes] using hrun

end Sys2Proof.Machine

namespace Sys2Proof.Proofs

open Sys2Proof.Machine Sys2Proof.Spec

/-- Settles O49: PUTS returns where the unbounded loop does, and that loop keeps all but R7. -/
theorem putsIsItsLoop : Obligations.PutsIsItsLoop := by
  intro ir s hop hv t
  rw [decode_trap_of_vector hop hv, exec_trap_puts_iff]
  exact ⟨Iff.rfl, StringRun.link_frame⟩

/-- Settles O51: PUTSP returns where the unbounded loop does, and that loop keeps all but R7. -/
theorem putspIsItsLoop : Obligations.PutspIsItsLoop := by
  intro ir s hop hv t
  rw [decode_trap_of_vector hop hv, exec_trap_putsp_iff, putspBytes_eq]
  exact ⟨Iff.rfl, StringRun.link_frame⟩

/-- Settles O53: in either routine the string's run is known, and with it the next state. -/
theorem stringsAreWrittenOut : Obligations.StringsAreWrittenOut := by
  intro s ignored ws hws hend hplain
  have hstring : s.link.mem.HoldsString (s.reg 0) ws := Memory.holdsString_of_getElem hws hend hplain
  refine ⟨⟨_, exec_trap_puts_iff.mpr (.of_holdsString _ hstring), ?_⟩, _, exec_trap_putsp_iff.mpr (.of_holdsString _ hstring), ?_⟩
  · rw [List.map_eq_flatMap]
    exact s.link_putBytes_spec _
  · rw [← putspBytes_eq_append]
    exact s.link_putBytes_spec _

/-- Settles O54: the bounded loop runs out of fuel exactly where the unbounded one reaches no state. -/
theorem endlessStringStops : Obligations.EndlessStringStops := by
  intro s ignored
  rw [exec_trap_puts, exec_trap_putsp, outcomeOfString_fault, outcomeOfString_fault]
  exact ⟨State.stringLoop_eq_none_iff, State.stringLoop_eq_none_iff⟩

/-- Settles O47: the character is delivered without an echo. -/
theorem getcReadsACharacter : Obligations.GetcReadsACharacter := by
  intro ir s c hop hv hc
  have hspec := State.link_awaitChar_spec .getc hc
  rw [echo, List.append_nil] at hspec
  rw [decode_trap_of_vector hop hv]
  exact ⟨_, exec_trap_getc _ s, hspec⟩

/-- Settles O48: OUT writes one byte, made from R0 as it was before the link. -/
theorem outWritesLowByte : Obligations.OutWritesLowByte := by
  intro ir s hop hv
  rw [decode_trap_of_vector hop hv]
  exact ⟨_, exec_trap_out _ s, s.link_putBytes_spec _⟩

/-- Settles O50: the character is delivered after its echo. -/
theorem inReadsAndEchoes : Obligations.InReadsAndEchoes := by
  intro ir s c hop hv hc
  rw [decode_trap_of_vector hop hv]
  exact ⟨_, exec_trap_in _ s, State.link_awaitChar_spec .inEcho hc⟩

/-- Settles O52: the message is written as bytes are by OUT, and clearing the flag makes the state final where no fault is recorded. -/
theorem haltPrintsAndStops : Obligations.HaltPrintsAndStops := by
  refine ⟨fun ir s hop hv => ?_, fun i s t h hne => ?_⟩
  · rw [decode_trap_of_vector hop hv]
    obtain ⟨hlinked, hout, hregs, hcond, hinput, hmem, -, hfault, hhold⟩ := s.link_putBytes_spec Config.haltMessage
    have hhalted : s.fault = none → s.link.halt.Halted := fun hs => ⟨rfl, hs⟩
    exact ⟨_, exec_trap_halt _ s, hlinked, hout, rfl,
      fun hs => ⟨.inl (hhalted hs), State.exitCode_of_halted (hhalted hs), step_ne_next_of_final (.inl (hhalted hs))⟩,
      hregs, hcond, hfault, hhold, hinput, hmem⟩
  · by_contra hhalt
    exact hne (exec_running h fun ignored hi => hhalt ⟨ignored, hi⟩)

/-- Settles O56: an unknown vector selects no routine, and the record keeps the whole word. -/
theorem unknownVectorFaults : Obligations.UnknownVectorFaults := by
  intro ir s hop hv
  have hunknown : routineOf (vectorField ir) = none := routineOf_eq_none hv
  rw [decode_trap hop, exec_trap_unknown hunknown, encode_trap hop]
  exact ⟨_, rfl, rfl, ⟨s.link_reg_same, rfl⟩, keepsRegsBut_link s, rfl, fun _ => rfl, rfl, rfl, rfl, rfl⟩

/-- Settles O57: the record keeps the whole word, its low bits too. -/
theorem rtiFaults : Obligations.RtiFaults := by
  intro ir s hop
  rw [decode_rti hop]
  conv_rhs => rw [← encode_rti hop]
  rfl

/-- Settles O58: the record keeps the whole word, its low bits too. -/
theorem reservedOpcodeFaults : Obligations.ReservedOpcodeFaults := by
  intro ir s hop
  rw [decode_reserved hop]
  conv_rhs => rw [← encode_reserved hop]
  rfl

end Sys2Proof.Proofs
end

section
/-! Steps and faults (60_exceptions.md R210-R213): a step that meets an illegal word is known whole, a step on a legal word keeps the
machine free of a fault record, and together with a hold's request they are all the steps there are. -/

namespace Sys2Proof.Machine

open Sys2Proof.Spec

/-! ## The fetch -/

@[simp] theorem State.fetch_reg (s : State) (r : Reg) : s.fetch.2.reg r = s.reg r := s.memRead_reg s.pc r
@[simp] theorem State.fetch_pc (s : State) : s.fetch.2.pc = s.pc + 1#16 := rfl
@[simp] theorem State.fetch_cond (s : State) : s.fetch.2.cond = s.cond := s.memRead_cond s.pc
@[simp] theorem State.fetch_mem (s : State) : s.fetch.2.mem = (s.memRead s.pc).2.mem := rfl
@[simp] theorem State.fetch_running (s : State) : s.fetch.2.running = s.running := s.memRead_running s.pc
@[simp] theorem State.fetch_fault (s : State) : s.fetch.2.fault = s.fault := s.memRead_fault s.pc
@[simp] theorem State.fetch_hold (s : State) : s.fetch.2.hold = s.hold := s.memRead_hold s.pc
@[simp] theorem State.fetch_output (s : State) : s.fetch.2.output = s.output := s.memRead_output s.pc

theorem State.fetch_phase {s : State} (h : s.phase = .fetching) : s.fetch.2.phase = .fetching := by
  simpa [State.phase_fetching] using h

/-! ## A step on an illegal word -/

/-- The state a fault is raised in: of the illegal instructions only TRAP has written its link (43_trap_system.md R182, R196, R197). -/
def State.beforeRaise (s : State) : FaultCause → State
  | .badTrapVector => s.link
  | .rtiOpcode | .reservedOpcode => s

@[simp] theorem State.beforeRaise_pc (s : State) (c : FaultCause) : (s.beforeRaise c).pc = s.pc := by cases c <;> rfl
@[simp] theorem State.beforeRaise_cond (s : State) (c : FaultCause) : (s.beforeRaise c).cond = s.cond := by cases c <;> rfl
@[simp] theorem State.beforeRaise_mem (s : State) (c : FaultCause) : (s.beforeRaise c).mem = s.mem := by cases c <;> rfl
@[simp] theorem State.beforeRaise_running (s : State) (c : FaultCause) : (s.beforeRaise c).running = s.running := by
  cases c <;> rfl
@[simp] theorem State.beforeRaise_hold (s : State) (c : FaultCause) : (s.beforeRaise c).hold = s.hold := by cases c <;> rfl
@[simp] theorem State.beforeRaise_output (s : State) (c : FaultCause) : (s.beforeRaise c).output = s.output := by
  cases c <;> rfl

theorem State.beforeRaise_link {c : FaultCause} (s : State) (hc : c = .badTrapVector) : (s.beforeRaise c).reg 7#3 = s.pc := by
  subst hc
  exact s.link_reg_same

theorem State.keepsRegsBut_beforeRaise (s : State) (c : FaultCause) :
    KeepsRegsBut (if c = .badTrapVector then [7] else []) s (s.beforeRaise c) := by
  cases c with
  | badTrapVector => exact keepsRegsBut_link s
  | rtiOpcode | reservedOpcode => exact fun _ _ => rfl

/-- The cause says which of the two states of `exec_of_cause` the fault is raised in. -/
theorem exec_illegal {i : Instr} {c : FaultCause} (hi : causeOf i = some c) (s : State) :
    exec i s = .next ((s.beforeRaise c).raise c (encode i)) := by
  cases i with
  | rti | reserved => cases hi; rfl
  | trap ignored v =>
    rw [causeOf_trap] at hi
    split at hi
    · cases hi
    · next hv =>
      cases hi
      exact exec_trap_unknown (by simpa using hv) ignored s
  | _ => cases hi

/-- The word in the record is the word fetched: an illegal word is the encoding of its instruction (60_exceptions.md R212). -/
theorem encode_decode_illegal {ir : Word} {c : FaultCause} (h : causeOf (decode ir) = some c) : encode (decode ir) = ir := by
  rcases (causeOf_decode_ne_none ir).mp (by simp [h]) with hop | hop | ⟨hop, -⟩
  · rw [decode_rti hop, encode_rti hop]
  · rw [decode_reserved hop, encode_reserved hop]
  · rw [decode_trap hop, encode_trap hop]

/-- The whole step on an illegal word: the fetch, TRAP's link, and a record of the word and where it stood. -/
theorem step_illegal {s : State} {c : FaultCause} (hs : s.phase = .fetching) (hc : causeOf (decode s.fetch.1) = some c) :
    step s = .next ((s.fetch.2.beforeRaise c).setFault { cause := c, ir := s.fetch.1, addr := s.pc }) := by
  rw [step_fetching hs, exec_illegal hc, encode_decode_illegal hc, State.raise]
  simp

/-! ## A step on a legal word -/

/-- What TRAP leaves for the invariant: no routine writes R7 or PC after the link (43_trap_system.md R180), and only GETC and IN reach
the hold (70_reset_and_hazards.md R247). -/
structure TrapLeaves (v : BitVec 8) (s t : State) : Prop where
  linked : Linked s t
  hold : ¬ AwaitsChar v → t.hold = s.hold
  wf : s.mem.wf → t.mem.wf

theorem exec_trap_leaves {ignored : BitVec 4} {v : BitVec 8} {s t : State} (h : exec (.trap ignored v) s = .next t) :
    TrapLeaves v s t := by
  rcases execTrap_shapes h with ⟨hv, hold, rfl⟩ | ⟨-, bytes, hrun⟩ | ⟨-, bytes, rfl⟩ | ⟨-, rfl⟩ | ⟨-, f, rfl⟩
  · obtain ⟨hreg, hpc, -, -, hmem, -⟩ := s.link.awaitChar_frame hold
    exact ⟨⟨(hreg 7 (by decide)).trans s.link_reg_same, hpc⟩, fun hn => absurd hv hn, fun hs => hmem ▸ hs⟩
  · obtain ⟨hlinked, -, -, -, -, hhold⟩ := hrun.link_frame
    obtain ⟨-, -, -, -, -, -, -, -, hwf, -⟩ := hrun.frame
    exact ⟨hlinked, fun _ => hhold, hwf⟩
  · exact ⟨⟨s.link_reg_same, rfl⟩, fun _ => rfl, id⟩
  · exact ⟨⟨s.link_reg_same, rfl⟩, fun _ => rfl, id⟩
  · exact ⟨⟨s.link_reg_same, rfl⟩, fun _ => rfl, id⟩

/-- Memory is changed by reads and stores alone, and each keeps its canonical form. -/
theorem exec_wf {i : Instr} {s t : State} (h : exec i s = .next t) (hs : s.mem.wf) : t.mem.wf := by
  cases i with
  | trap ignored v => exact (exec_trap_leaves h).wf hs
  | br n z p off =>
    cases h
    split <;> exact hs
  | ld | ldr => cases h; exact s.memRead_wf _ hs
  | ldi => cases h; exact State.memRead_wf _ _ (s.memRead_wf _ hs)
  | st | str => cases h; exact Memory.write_wf _ _ hs
  | sti => cases h; exact Memory.write_wf _ _ (s.memRead_wf _ hs)
  | addReg | addImm | andReg | andImm | not | lea | jmp | jsr | jsrr | rti | reserved => cases h; exact hs

theorem exec_hold {i : Instr} {s t : State} (h : exec i s = .next t) (hi : ∀ ignored v, i = .trap ignored v → ¬ AwaitsChar v) :
    t.hold = s.hold := by
  cases i with
  | trap ignored v => exact (exec_trap_leaves h).hold (hi ignored v rfl)
  | br n z p off =>
    cases h
    split <;> rfl
  | ld | ldi | ldr => cases h; simp [State.loadResult, State.readPointer]
  | sti => cases h; simp [State.readPointer]
  | addReg | addImm | st | jsr | jsrr | andReg | andImm | str | not | jmp | lea | rti | reserved => cases h; rfl

/-! ## The invariant -/

/-- Without a fault record the invariant is about memory, and about R7 where the machine has stopped or holds. -/
theorem State.Inv.of_fault_none {t : State} (hmem : t.mem.wf) (hfault : t.fault = none)
    (hstopped : t.running = false → t.reg 7#3 = t.pc) (hheld : t.hold ≠ none → t.running = true ∧ t.reg 7#3 = t.pc) : t.Inv where
  memCanonical := hmem
  faultRunning h := by simp [State.Faulted, hfault] at h
  faultPc f h := by simp [hfault] at h
  faultCause f h := by simp [hfault] at h
  faultLink f h := by simp [hfault] at h
  haltLink := hstopped
  holdLive h := by
    obtain ⟨hrunning, hlink⟩ := hheld (Option.isSome_iff_ne_none.mp h)
    exact ⟨hrunning, hfault, hlink⟩

/-- A held request leaves PC, R7, memory and the termination state alone, whether it is answered or not. -/
theorem State.Inv.awaitChar {s : State} {hold : Hold} (hs : s.Inv) (hphase : s.phase = .waiting hold) : (s.awaitChar hold).Inv := by
  obtain ⟨hfault, hrunning, hhold⟩ := State.phase_waiting.mp hphase
  obtain ⟨-, -, hlink⟩ := hs.holdLive (by simp [hhold])
  obtain ⟨hreg, hpc, hrunning', hfault', hmem, -⟩ := s.awaitChar_frame hold
  have hlink' : (s.awaitChar hold).reg 7#3 = (s.awaitChar hold).pc := by rw [hreg 7#3 (by decide), hpc, hlink]
  exact .of_fault_none (hmem ▸ hs.memCanonical) (hfault'.trans hfault) (fun _ => hlink') fun _ => ⟨hrunning'.trans hrunning, hlink'⟩

/-- A legal instruction that stops the machine or leaves it held is a TRAP, and a TRAP leaves R7 = PC. -/
theorem inv_of_exec_legal {i : Instr} {s t : State} (hs : s.phase = .fetching) (hwf : s.mem.wf) (hi : causeOf i = none)
    (h : exec i s = .next t) : t.Inv := by
  obtain ⟨hfault, hrunning, hhold⟩ := State.phase_fetching.mp hs
  refine .of_fault_none (exec_wf h hwf) ((exec_fault_of_legal h hi).trans hfault) (fun hstop => ?_) fun hheld => ?_
  · obtain ⟨ignored, rfl⟩ : ∃ ignored, i = .trap ignored 0x25 := by
      by_contra hnot
      simp [exec_running h fun ignored hi => hnot ⟨ignored, hi⟩, hrunning] at hstop
    obtain ⟨hlink, hpc⟩ := (exec_trap_leaves h).linked
    exact hlink.trans hpc.symm
  · obtain ⟨ignored, v, rfl, hv⟩ : ∃ ignored v, i = .trap ignored v ∧ AwaitsChar v := by
      by_contra hnot
      exact hheld ((exec_hold h fun ignored v hi hv => hnot ⟨ignored, v, hi, hv⟩).trans hhold)
    have hgoesOn : v ≠ 0x25 := by
      rintro rfl
      exact absurd hv (by unfold AwaitsChar; decide)
    obtain ⟨hlink, hpc⟩ := (exec_trap_leaves h).linked
    exact ⟨((execTrap_frame h).running hgoesOn).trans hrunning, hlink.trans hpc.symm⟩

/-- The state a step on an illegal word leaves: its record is truthful, and nothing has stopped or holds. -/
theorem inv_of_illegal {s : State} {c : FaultCause} (hs : s.phase = .fetching) (hwf : s.mem.wf)
    (hc : causeOf (decode s.fetch.1) = some c) :
    ((s.fetch.2.beforeRaise c).setFault { cause := c, ir := s.fetch.1, addr := s.pc }).Inv := by
  obtain ⟨-, hrunning, hhold⟩ := State.phase_fetching.mp hs
  refine ⟨?_, fun _ => ?_, ?_, ?_, ?_, fun hstop => ?_, fun hheld => ?_⟩
  · simpa using s.memRead_wf s.pc hwf
  · simpa using hrunning
  · rintro _ ⟨⟩
    simp
  · rintro _ ⟨⟩
    exact hc
  · rintro _ ⟨⟩ hbad
    simpa using s.fetch.2.beforeRaise_link hbad
  · simp [hrunning] at hstop
  · simp [hhold] at hheld

/-! ## Steps that do not go on -/

theorem writesString_of_routineOf {v : BitVec 8} (h : routineOf v = some .puts ∨ routineOf v = some .putsp) : WritesString v := by
  unfold WritesString
  revert v
  decide

/-- An instruction goes on, or is a PUTS or PUTSP that never returns. -/
theorem exec_next_or_hangs (i : Instr) (s : State) :
    (∃ t, exec i s = .next t) ∨
      (exec i s = .fault .routineNeverReturns ∧ ∃ ignored v, i = .trap ignored v ∧ WritesString v) := by
  cases h : exec i s with
  | next t => exact .inl ⟨t, rfl⟩
  | fault f =>
    obtain ⟨rfl, ignored, v, hi, hv⟩ := exec_fault h
    exact .inr ⟨rfl, ignored, v, hi, writesString_of_routineOf (hv.imp And.left And.left)⟩
  | refused r => exact absurd h (exec_not_refused i s r)

end Sys2Proof.Machine

namespace Sys2Proof.Proofs

open Sys2Proof.Machine Sys2Proof.Spec

/-- Settles O20: a held request, an illegal word and a legal one each leave the invariant. -/
theorem stepKeepsInvariant : Obligations.StepKeepsInvariant := by
  intro s t hs h
  rcases step_cases h with ⟨hold, hphase, rfl⟩ | ⟨hphase, hexec⟩
  · exact hs.awaitChar hphase
  · cases hc : causeOf (decode s.fetch.1) with
    | none => exact inv_of_exec_legal (State.fetch_phase hphase) (s.memRead_wf s.pc hs.memCanonical) hc hexec
    | some c =>
      cases (step_illegal hphase hc).symm.trans h
      exact inv_of_illegal hphase hs.memCanonical hc

/-- Settles O17, by what the step finds: a hold always has a next state, and a fetched instruction goes on or hangs. -/
theorem onlyFinalStatesAndHangsStop : Obligations.OnlyFinalStatesAndHangsStop := by
  intro s hs
  cases hphase : s.phase with
  | final why => exact absurd (State.phase_final.mp ⟨why, hphase⟩) hs
  | waiting hold => exact .inl ⟨_, step_waiting hphase⟩
  | fetching =>
    rw [step_fetching hphase]
    exact exec_next_or_hangs (decode s.fetch.1) s.fetch.2

/-- Settles O59: a step that leaves a record is one on an illegal word, whose next state is known whole. -/
theorem faultedStateIsFinal : Obligations.FaultedStateIsFinal := by
  intro s t f hrunning hfault hhold h hf
  have hphase : s.phase = .fetching := State.phase_fetching.mpr ⟨hfault, hrunning, hhold⟩
  have hfaulted : t.Faulted := Option.isSome_iff_exists.mpr ⟨f, hf⟩
  cases hc : causeOf (decode s.fetch.1) with
  | none =>
    have hkept : t.fault = s.fetch.2.fault := exec_fault_of_legal ((step_fetching hphase).symm.trans h) hc
    simp [hkept, hfault] at hf
  | some c =>
    cases (step_illegal hphase hc).symm.trans h
    cases hf
    have hmem : KeepsMemory (s.memRead s.pc).2 (s.fetch.2.beforeRaise c) := fun a => by simp
    refine ⟨rfl, rfl, by simp, fun hbad => s.fetch.2.beforeRaise_link hbad, by simpa using hrunning, fun r hr => ?_, by simp,
      hmem, fun hpc a => ?_, by simp, State.exitCode_of_faulted hfaulted, step_ne_next_of_final (.inr hfaulted)⟩
    · exact (s.fetch.2.keepsRegsBut_beforeRaise c r hr).trans (s.fetch_reg r)
    · exact (hmem a).trans (by rw [s.memRead_plain hpc])

end Sys2Proof.Proofs
end

section
/-! The step as a whole (70_reset_and_hazards.md R244) and the input hold (R247): a request without a character leaves the routine
waiting, and a waiting state repeats its request and nothing else until a character ends the hold. -/

namespace Sys2Proof.Machine

open Sys2Proof.Spec

/-! ## Final states and the fetch -/

/-- The loop's own test for the end of a run, in which a fault may be recorded in a state that has stopped too
(70_reset_and_hazards.md R244). -/
theorem State.final_iff {s : State} : s.Final ↔ s.running = false ∨ s.fault ≠ none := by
  by_cases hfault : s.fault = none
  · simp [State.Final, State.Halted, State.Faulted, hfault]
  · simp [State.Final, State.Faulted, hfault, Option.isSome_iff_ne_none]

/-- Without a hold, a state that is not final executes the word at its PC (70_reset_and_hazards.md R244). -/
theorem step_of_not_held {s : State} (hrunning : s.running = true) (hfault : s.fault = none) (hhold : s.hold = none) :
    step s = exec (decode (s.memRead s.pc).1) ((s.memRead s.pc).2.setPc (s.pc + 1#16)) :=
  step_fetching (State.phase_fetching.mpr ⟨hfault, hrunning, hhold⟩)

/-! ## A request without a character -/

theorem State.awaitChar_of_none {s : State} (h : Hold) (hnone : s.input.draw.1 = none) :
    s.awaitChar h = (s.setInput s.input.draw.2).setHold (some h) := by
  simp [State.awaitChar, State.poll, hnone]

/-- A routine that waits already changes the agent alone: its hold stays as it is (70_reset_and_hazards.md R247). -/
theorem State.awaitChar_of_held {s : State} {h : Hold} (hhold : s.hold = some h) (hnone : s.input.draw.1 = none) :
    s.awaitChar h = s.setInput s.input.draw.2 := by
  rw [State.awaitChar_of_none h hnone, ← hhold]
  rfl

/-- TRAP with a routine that gets no character: R7, the agent and the hold change, and nothing else. -/
theorem State.link_awaitChar_holds {s : State} (h : Hold) (hnone : s.input.draw.1 = none) :
    (s.link.awaitChar h).hold = some h ∧ Linked s (s.link.awaitChar h) ∧ KeepsRegsBut [7] s (s.link.awaitChar h) ∧
      (s.link.awaitChar h).cond = s.cond ∧ (s.link.awaitChar h).input = s.input.draw.2 ∧
      (s.link.awaitChar h).output = s.output ∧ KeepsMemory s (s.link.awaitChar h) ∧
      (s.link.awaitChar h).running = s.running ∧ (s.link.awaitChar h).fault = s.fault := by
  rw [State.awaitChar_of_none (s := s.link) h hnone]
  exact ⟨rfl, ⟨s.link_reg_same, rfl⟩, keepsRegsBut_link s, rfl, rfl, rfl, fun _ => rfl, rfl, rfl⟩

/-- The two vectors whose routine waits, each with its hold (43_trap_system.md R186, R189). -/
theorem exec_trap_awaits {v : BitVec 8} {h : Hold} (hv : (v = 0x20 ∧ h = .getc) ∨ (v = 0x23 ∧ h = .inEcho))
    (ignored : BitVec 4) (s : State) : exec (.trap ignored v) s = .next (s.link.awaitChar h) := by
  rcases hv with ⟨rfl, rfl⟩ | ⟨rfl, rfl⟩
  · exact exec_trap_getc ignored s
  · exact exec_trap_in ignored s

/-! ## A request with a character -/

/-- A request that is answered changes R0, COND, the output, the agent and the hold, and nothing else. -/
theorem State.awaitChar_delivers {s : State} {c : Byte} (h : Hold) (hc : s.input.draw.1 = some c) :
    (s.awaitChar h).hold = none ∧ (s.awaitChar h).reg 0 = charWord c ∧ (s.awaitChar h).cond = classify (charWord c) ∧
      (s.awaitChar h).output = s.output ++ echo h c ∧ (s.awaitChar h).input = s.input.draw.2 ∧ (s.awaitChar h).pc = s.pc ∧
      KeepsRegsBut [0] s (s.awaitChar h) ∧ KeepsMemory s (s.awaitChar h) ∧ (s.awaitChar h).running = s.running ∧
      (s.awaitChar h).fault = s.fault := by
  obtain ⟨hchar, hcond, hout, hhold⟩ := State.awaitChar_of_char h hc
  obtain ⟨hreg, hpc, hrunning, hfault, hmem, hinput, -⟩ := s.awaitChar_frame h
  exact ⟨hhold, hchar, hcond, hout, hinput, hpc, fun r hr => hreg r (List.ne_of_not_mem_cons hr),
    fun a => congrArg (·.read a) hmem, hrunning, hfault⟩

end Sys2Proof.Machine

namespace Sys2Proof.Proofs

open Sys2Proof.Machine Sys2Proof.Spec

/-- Settles O16, from the steps and the exit status of final states, and the step of a state that fetches. -/
theorem stepRunsTheDecodedInstruction : Obligations.StepRunsTheDecodedInstruction :=
  ⟨fun _ hfinal => step_ne_next_of_final (State.final_iff.mpr hfinal),
    fun _ hrunning hfault hhold => step_of_not_held hrunning hfault hhold,
    fun _ hrunning hfault => State.exitCode_of_halted ⟨hrunning, hfault⟩,
    fun _ hfault => State.exitCode_of_faulted (Option.isSome_iff_ne_none.mpr hfault)⟩

/-- Settles O55: TRAP makes the request after its link, and a held state makes the same request without it. -/
theorem inputHold : Obligations.InputHold := by
  refine ⟨fun s ignored v h hv hnone => ⟨_, exec_trap_awaits hv ignored s, State.link_awaitChar_holds h hnone⟩,
    fun s h hrunning hfault hhold => ?_⟩
  have hstep : step s = .next (s.awaitChar h) := step_waiting (State.phase_waiting.mpr ⟨hfault, hrunning, hhold⟩)
  have hwaits (hnone : s.input.draw.1 = none) : step s = .next (s.setInput s.input.draw.2) := by
    rw [hstep, State.awaitChar_of_held hhold hnone]
  refine ⟨by simp [State.final_iff, hrunning, hfault], hwaits, fun hnever => ?_, fun c hc => ⟨_, hstep, ?_⟩⟩
  · have hsame : s.input.draw = (none, s.input) := by
      rw [hnever]
      rfl
    rw [hwaits (congrArg Prod.fst hsame), hsame]
    rfl
  · have hspec := State.awaitChar_delivers h hc
    rw [hrunning, hfault] at hspec
    cases h with
    | getc | inEcho => exact hspec

end Sys2Proof.Proofs
end

section
/-! The two codings of an instruction are inverse (30_encoding.md R82-R92): a field is read back from the place it is put at, and the
places of each format together cover the word. -/

namespace Sys2Proof

/-! ## Reading a placed field -/

/-- A field is read back from its place. -/
@[simp] theorem extractLsb'_place_same {lo n : Nat} (v : BitVec n) (h : lo + n ≤ 16) : (place lo v).extractLsb' lo n = v := by
  ext k hk
  have hword : lo + k < 16 := by omega
  simp [place, hword, hk]

/-- Elsewhere a placed field leaves zeros. -/
@[simp] theorem extractLsb'_place_disjoint {lo m start n : Nat} (v : BitVec m) (h : start + n ≤ lo ∨ lo + m ≤ start) :
    (place lo v).extractLsb' start n = 0#n := by
  ext k hk
  simp only [place, BitVec.getElem_extractLsb', BitVec.getLsbD_shiftLeft, BitVec.getLsbD_setWidth, BitVec.getElem_zero]
  rcases h with hbelow | habove
  · have hk' : start + k < lo := by omega
    simp [hk']
  · rw [BitVec.getLsbD_of_ge v _ (by omega)]
    simp

@[simp] theorem getElem_place {lo n k : Nat} (v : BitVec n) (hk : k < 16) :
    (place lo v)[k] = (decide (lo ≤ k) && v.getLsbD (k - lo)) := by
  rw [place, BitVec.getElem_shiftLeft]
  by_cases h : lo ≤ k
  · simp [h]
  · have hbelow : k < lo := by omega
    simp [h, hbelow]

/-! ## Decoding an encoding -/

/-- The opcode of an instruction (30_encoding.md R82). -/
def Instr.opcode : Instr → BitVec 4
  | .br _ _ _ _ => 0x0
  | .addReg _ _ _ _ | .addImm _ _ _ => 0x1
  | .ld _ _ => 0x2
  | .st _ _ => 0x3
  | .jsr _ | .jsrr _ _ _ => 0x4
  | .andReg _ _ _ _ | .andImm _ _ _ => 0x5
  | .ldr _ _ _ => 0x6
  | .str _ _ _ => 0x7
  | .rti _ => 0x8
  | .not _ _ _ => 0x9
  | .ldi _ _ => 0xA
  | .sti _ _ => 0xB
  | .jmp _ _ _ => 0xC
  | .reserved _ => 0xD
  | .lea _ _ => 0xE
  | .trap _ _ => 0xF

theorem opcodeField_encode (i : Instr) : opcodeField (encode i) = i.opcode := by
  cases i <;> simp [opcodeField, encode, Instr.opcode, BitVec.extractLsb'_or]

/-- The opcode and, where it has two rows, the mode bit choose the row; each operand is then read from the place it was put at. -/
theorem decode_encode (i : Instr) : decode (encode i) = i := by
  have hop := opcodeField_encode i
  cases i with
  | br => simpa [encode, offset9Field, BitVec.extractLsb'_or] using decode_br hop
  | addReg => simpa [encode, drField, baseField, sr2Field, BitVec.extractLsb'_or] using decode_addReg hop (by simp [encode])
  | addImm => simpa [encode, drField, baseField, imm5Field, BitVec.extractLsb'_or] using decode_addImm hop (by simp [encode])
  | ld => simpa [encode, drField, offset9Field, BitVec.extractLsb'_or] using decode_ld hop
  | st => simpa [encode, drField, offset9Field, BitVec.extractLsb'_or] using decode_st hop
  | jsr => simpa [encode, offset11Field, BitVec.extractLsb'_or] using decode_jsr hop (by simp [encode])
  | jsrr => simpa [encode, baseField, offset6Field, BitVec.extractLsb'_or] using decode_jsrr hop (by simp [encode])
  | andReg => simpa [encode, drField, baseField, sr2Field, BitVec.extractLsb'_or] using decode_andReg hop (by simp [encode])
  | andImm => simpa [encode, drField, baseField, imm5Field, BitVec.extractLsb'_or] using decode_andImm hop (by simp [encode])
  | ldr => simpa [encode, drField, baseField, offset6Field, BitVec.extractLsb'_or] using decode_ldr hop
  | str => simpa [encode, drField, baseField, offset6Field, BitVec.extractLsb'_or] using decode_str hop
  | rti => simpa [encode, low12Field, BitVec.extractLsb'_or] using decode_rti hop
  | not => simpa [encode, drField, baseField, offset6Field, BitVec.extractLsb'_or] using decode_not hop
  | ldi => simpa [encode, drField, offset9Field, BitVec.extractLsb'_or] using decode_ldi hop
  | sti => simpa [encode, drField, offset9Field, BitVec.extractLsb'_or] using decode_sti hop
  | jmp => simpa [encode, drField, baseField, offset6Field, BitVec.extractLsb'_or] using decode_jmp hop
  | reserved => simpa [encode, low12Field, BitVec.extractLsb'_or] using decode_reserved hop
  | lea => simpa [encode, drField, offset9Field, BitVec.extractLsb'_or] using decode_lea hop
  | trap => simpa [encode, vectorField, BitVec.extractLsb'_or] using decode_trap hop

/-! ## Encoding a decoding

The fields of a format, from the top of the word down, join to longer and longer fields and at last to the whole word. -/

theorem place_opcode_dr (ir : Word) :
    place 12 (opcodeField ir) ||| place 9 (drField ir) = place 9 (ir.extractLsb' 9 7) :=
  place_or_place_adjacent ir 9 4 3

theorem place_opcode_dr_base (ir : Word) :
    place 12 (opcodeField ir) ||| place 9 (drField ir) ||| place 6 (baseField ir) = place 6 (ir.extractLsb' 6 10) := by
  rw [place_opcode_dr]
  exact place_or_place_adjacent ir 6 7 3

/-- Format R89. -/
theorem place_opcode_dr_offset9 (ir : Word) :
    place 12 (opcodeField ir) ||| place 9 (drField ir) ||| place 0 (offset9Field ir) = ir := by
  rw [place_opcode_dr]
  exact (place_or_place_adjacent ir 0 7 9).trans (place_whole_word ir)

/-- Formats R85, R87 and R90. -/
theorem place_opcode_dr_base_offset6 (ir : Word) :
    place 12 (opcodeField ir) ||| place 9 (drField ir) ||| place 6 (baseField ir) ||| place 0 (offset6Field ir) = ir := by
  rw [place_opcode_dr_base]
  exact (place_or_place_adjacent ir 0 10 6).trans (place_whole_word ir)

/-! A mode bit, and each condition bit of BR, is a field of one bit; where it is 0, no field need be put there. -/

theorem ofBool_getElem_eq_extractLsb' (ir : Word) {k : Nat} (hk : k < 16) : BitVec.ofBool ir[k] = ir.extractLsb' k 1 := by
  ext i hi
  obtain rfl : i = 0 := by omega
  simp [hk]

theorem or_place_false (w : Word) (lo : Nat) : w ||| place lo (BitVec.ofBool false) = w := by
  simp [place]

theorem place_opcode_dr_base_mode (ir : Word) :
    place 12 (opcodeField ir) ||| place 9 (drField ir) ||| place 6 (baseField ir) ||| place 5 (BitVec.ofBool ir[5]) =
      place 5 (ir.extractLsb' 5 11) := by
  rw [place_opcode_dr_base, ofBool_getElem_eq_extractLsb']
  exact place_or_place_adjacent ir 5 10 1

/-- Format R84 in immediate mode. -/
theorem place_imm_mode {ir : Word} (hmode : ir[5] = true) :
    place 12 (opcodeField ir) ||| place 9 (drField ir) ||| place 6 (baseField ir) ||| place 5 1#1 |||
      place 0 (imm5Field ir) = ir := by
  have hhigh := place_opcode_dr_base_mode ir
  rw [hmode] at hhigh
  exact (congrArg (· ||| _) hhigh).trans ((place_or_place_adjacent ir 0 11 5).trans (place_whole_word ir))

/-- Format R84 in register mode: bit 5 is in no operand, and it is 0. -/
theorem place_reg_mode {ir : Word} (hmode : ir[5] = false) :
    place 12 (opcodeField ir) ||| place 9 (drField ir) ||| place 6 (baseField ir) ||| place 3 (ir.extractLsb' 3 2) |||
      place 0 (sr2Field ir) = ir := by
  have hhigh := place_opcode_dr_base_mode ir
  rw [hmode, or_place_false] at hhigh
  rw [hhigh, place_or_place_adjacent ir 3 11 2]
  exact (place_or_place_adjacent ir 0 13 3).trans (place_whole_word ir)

theorem place_opcode_bit11 (ir : Word) :
    place 12 (opcodeField ir) ||| place 11 (BitVec.ofBool ir[11]) = place 11 (ir.extractLsb' 11 5) := by
  rw [ofBool_getElem_eq_extractLsb']
  exact place_or_place_adjacent ir 11 4 1

/-- Format R88 with ir[11] = 1. -/
theorem place_jsr_mode {ir : Word} (hmode : ir[11] = true) :
    place 12 (opcodeField ir) ||| place 11 1#1 ||| place 0 (offset11Field ir) = ir := by
  have hhigh := place_opcode_bit11 ir
  rw [hmode] at hhigh
  exact (congrArg (· ||| _) hhigh).trans ((place_or_place_adjacent ir 0 5 11).trans (place_whole_word ir))

/-- Format R88 with ir[11] = 0. -/
theorem place_jsrr_mode {ir : Word} (hmode : ir[11] = false) :
    place 12 (opcodeField ir) ||| place 9 (ir.extractLsb' 9 2) ||| place 6 (baseField ir) ||| place 0 (offset6Field ir) = ir := by
  have hhigh := place_opcode_bit11 ir
  rw [hmode, or_place_false] at hhigh
  have hbase : place 9 (ir.extractLsb' 9 7) ||| place 6 (baseField ir) = place 6 (ir.extractLsb' 6 10) :=
    place_or_place_adjacent ir 6 7 3
  rw [hhigh, place_or_place_adjacent ir 9 5 2, hbase]
  exact (place_or_place_adjacent ir 0 10 6).trans (place_whole_word ir)

/-- Format R86. -/
theorem place_br (ir : Word) :
    place 12 (opcodeField ir) ||| place 11 (BitVec.ofBool ir[11]) ||| place 10 (BitVec.ofBool ir[10]) |||
      place 9 (BitVec.ofBool ir[9]) ||| place 0 (offset9Field ir) = ir := by
  rw [place_opcode_bit11, ofBool_getElem_eq_extractLsb', ofBool_getElem_eq_extractLsb', place_or_place_adjacent ir 10 5 1,
    place_or_place_adjacent ir 9 6 1]
  exact (place_or_place_adjacent ir 0 7 9).trans (place_whole_word ir)

theorem opcode_cases : ∀ op : BitVec 4,
    op = 0x0#4 ∨ op = 0x1#4 ∨ op = 0x2#4 ∨ op = 0x3#4 ∨ op = 0x4#4 ∨ op = 0x5#4 ∨ op = 0x6#4 ∨ op = 0x7#4 ∨
      op = 0x8#4 ∨ op = 0x9#4 ∨ op = 0xA#4 ∨ op = 0xB#4 ∨ op = 0xC#4 ∨ op = 0xD#4 ∨ op = 0xE#4 ∨ op = 0xF#4 := by decide

/-- The opcode and the mode bit give the format, and the fields of each format cover the word. -/
theorem encode_decode (ir : Word) : encode (decode ir) = ir := by
  rcases opcode_cases (opcodeField ir) with
    hop | hop | hop | hop | hop | hop | hop | hop | hop | hop | hop | hop | hop | hop | hop | hop
  · rw [decode_br hop, encode, ← hop, place_br]
  · cases hmode : ir[5] with
    | false => rw [decode_addReg hop hmode, encode, ← hop, place_reg_mode hmode]
    | true => rw [decode_addImm hop hmode, encode, ← hop, place_imm_mode hmode]
  · rw [decode_ld hop, encode, ← hop, place_opcode_dr_offset9]
  · rw [decode_st hop, encode, ← hop, place_opcode_dr_offset9]
  · cases hmode : ir[11] with
    | false => rw [decode_jsrr hop hmode, encode, ← hop, place_jsrr_mode hmode]
    | true => rw [decode_jsr hop hmode, encode, ← hop, place_jsr_mode hmode]
  · cases hmode : ir[5] with
    | false => rw [decode_andReg hop hmode, encode, ← hop, place_reg_mode hmode]
    | true => rw [decode_andImm hop hmode, encode, ← hop, place_imm_mode hmode]
  · rw [decode_ldr hop, encode, ← hop, place_opcode_dr_base_offset6]
  · rw [decode_str hop, encode, ← hop, place_opcode_dr_base_offset6]
  · rw [decode_rti hop, encode_rti hop]
  · rw [decode_not hop, encode, ← hop, place_opcode_dr_base_offset6]
  · rw [decode_ldi hop, encode, ← hop, place_opcode_dr_offset9]
  · rw [decode_sti hop, encode, ← hop, place_opcode_dr_offset9]
  · rw [decode_jmp hop, encode, ← hop, place_opcode_dr_base_offset6]
  · rw [decode_reserved hop, encode_reserved hop]
  · rw [decode_lea hop, encode, ← hop, place_opcode_dr_offset9]
  · rw [decode_trap hop, encode_trap hop]

end Sys2Proof

namespace Sys2Proof.Proofs

/-- Settles O1: each operand of the instruction the opcode and mode bit choose is read from where the encoder put it. -/
theorem decodeOfEncode : Obligations.DecodeOfEncode := decode_encode

/-- Settles O2: the fields the decoder reads, each put back at its place, are the word. -/
theorem encodeOfDecode : Obligations.EncodeOfDecode := encode_decode

/-- Settles O6: each word has its opcode and mode bit, and its operands in the fields of its format. -/
theorem sampleWordsDecode : Obligations.SampleWordsDecode :=
  ⟨decode_addImm rfl rfl, decode_andReg rfl rfl, decode_not rfl, decode_br rfl, decode_jsr rfl rfl, decode_ldi rfl, decode_jmp rfl,
    decode_trap rfl⟩

end Sys2Proof.Proofs
end

section
/-! Ignored bits (30_encoding.md R95): two words that agree on the other bits have the same row and the same operands but the ignored
ones, and those are seen in a fault record alone. -/

namespace Sys2Proof

variable {ir ir' mask : Word}

/-! ## What words that agree under a mask share -/

/-- A field the mask keeps whole. -/
theorem extractLsb'_eq_of_and_eq {lo n : Nat} (h : ir &&& mask = ir' &&& mask)
    (hkept : mask.extractLsb' lo n = BitVec.allOnes n) : ir.extractLsb' lo n = ir'.extractLsb' lo n := by
  simpa only [BitVec.extractLsb'_and, hkept, BitVec.and_allOnes] using congrArg (·.extractLsb' lo n) h

/-- A bit the mask keeps. -/
theorem getElem_eq_of_and_eq {k : Nat} (hk : k < 16) (h : ir &&& mask = ir' &&& mask) (hkept : mask[k] = true) : ir[k] = ir'[k] := by
  have hbit : (ir &&& mask)[k] = (ir' &&& mask)[k] := by rw [h]
  simpa only [BitVec.getElem_and, hkept, Bool.and_true] using hbit

/-- Under the mask of format R84 in register mode: all but ir[4:3]. -/
theorem regMode_operands_eq (h : ir &&& 0xFFE7#16 = ir' &&& 0xFFE7#16) :
    ir[5] = ir'[5] ∧ drField ir = drField ir' ∧ baseField ir = baseField ir' ∧ sr2Field ir = sr2Field ir' :=
  ⟨getElem_eq_of_and_eq (by decide) h rfl, extractLsb'_eq_of_and_eq h rfl, extractLsb'_eq_of_and_eq h rfl,
    extractLsb'_eq_of_and_eq h rfl⟩

end Sys2Proof

namespace Sys2Proof.Machine

open Sys2Proof.Spec

/-! ## The words with ignored bits -/

/-- The list of R95: a word has no ignored bits, or it is of one of these rows, with this mask. -/
theorem careMask_cases (ir : Word) :
    careMask ir = 0xFFFF ∨ (opcodeField ir = 0x1#4 ∧ ir[5] = false ∧ careMask ir = 0xFFE7) ∨
      (opcodeField ir = 0x5#4 ∧ ir[5] = false ∧ careMask ir = 0xFFE7) ∨
      (opcodeField ir = 0x4#4 ∧ ir[11] = false ∧ careMask ir = 0xF9C0) ∨ (opcodeField ir = 0x9#4 ∧ careMask ir = 0xFFC0) ∨
      (opcodeField ir = 0xC#4 ∧ careMask ir = 0xF1C0) ∨ (opcodeField ir = 0xF#4 ∧ careMask ir = 0xF0FF) ∨
      (opcodeField ir = 0x8#4 ∧ careMask ir = 0xF000) ∨ (opcodeField ir = 0xD#4 ∧ careMask ir = 0xF000) := by
  unfold careMask opcodeField
  split_ifs <;> simp_all

/-! ## Instructions that differ in ignored operands -/

theorem exec_trap_ignored (ignored ignored' : BitVec 4) (v : BitVec 8) (s : State) :
    withoutFaultWord (exec (.trap ignored v) s) = withoutFaultWord (exec (.trap ignored' v) s) := by
  cases hv : routineOf v with
  | some r => cases r <;> simp [exec, execTrap, hv]
  | none => rw [exec_trap_unknown hv, exec_trap_unknown hv]; rfl

/-- Each row with ignored bits: the mask keeps the opcode, the mode bit and the operands the meaning uses. -/
theorem exec_decode_of_careMask {ir ir' : Word} (s : State) (h : ir &&& careMask ir = ir' &&& careMask ir) :
    withoutFaultWord (exec (decode ir) s) = withoutFaultWord (exec (decode ir') s) := by
  rcases careMask_cases ir with
    hm | ⟨hop, hmode, hm⟩ | ⟨hop, hmode, hm⟩ | ⟨hop, hmode, hm⟩ | ⟨hop, hm⟩ | ⟨hop, hm⟩ | ⟨hop, hm⟩ | ⟨hop, hm⟩ | ⟨hop, hm⟩ <;>
    rw [hm] at h
  · have hsame : ir = ir' := by simpa only [BitVec.extractLsb'_eq_self] using extractLsb'_eq_of_and_eq (lo := 0) (n := 16) h rfl
    rw [hsame]
  all_goals have hop' := (extractLsb'_eq_of_and_eq h rfl).symm.trans hop
  · obtain ⟨hbit, hdr, hsr1, hsr2⟩ := regMode_operands_eq h
    have hmode' := hbit.symm.trans hmode
    rw [decode_addReg hop hmode, decode_addReg hop' hmode', hdr, hsr1, hsr2]
    rfl
  · obtain ⟨hbit, hdr, hsr1, hsr2⟩ := regMode_operands_eq h
    have hmode' := hbit.symm.trans hmode
    rw [decode_andReg hop hmode, decode_andReg hop' hmode', hdr, hsr1, hsr2]
    rfl
  · have hmode' := (getElem_eq_of_and_eq (by decide) h rfl).symm.trans hmode
    have hbase : baseField ir = baseField ir' := extractLsb'_eq_of_and_eq h rfl
    rw [decode_jsrr hop hmode, decode_jsrr hop' hmode', hbase]
    rfl
  · have hdr : drField ir = drField ir' := extractLsb'_eq_of_and_eq h rfl
    have hsr1 : baseField ir = baseField ir' := extractLsb'_eq_of_and_eq h rfl
    rw [decode_not hop, decode_not hop', hdr, hsr1]
    rfl
  · have hbase : baseField ir = baseField ir' := extractLsb'_eq_of_and_eq h rfl
    rw [decode_jmp hop, decode_jmp hop', hbase]
    rfl
  · have hv : vectorField ir = vectorField ir' := extractLsb'_eq_of_and_eq h rfl
    rw [decode_trap hop, decode_trap hop', hv]
    exact exec_trap_ignored _ _ _ s
  · rw [decode_rti hop, decode_rti hop']
    rfl
  · rw [decode_reserved hop, decode_reserved hop']
    rfl

end Sys2Proof.Machine

namespace Sys2Proof.Proofs

open Sys2Proof.Machine

/-- Settles O4: the rows of two such words agree, and so do the operands their meanings use. -/
theorem ignoredBitsDoNotMatter : Obligations.IgnoredBitsDoNotMatter := fun _ _ s h => exec_decode_of_careMask s h

end Sys2Proof.Proofs
end

section
/-! The invariant where the loop starts (10_state.md R39, 70_reset_and_hazards.md R241): nothing has faulted, stopped or held, and the
load keeps memory canonical. -/

namespace Sys2Proof.Machine

/-- A machine that runs, without a fault record and without a hold, has nothing to keep but its memory's form. -/
theorem State.Inv.of_fetching {t : State} (hmem : t.mem.wf) (hphase : t.phase = .fetching) : t.Inv := by
  obtain ⟨hfault, hrunning, hhold⟩ := State.phase_fetching.mp hphase
  exact .of_fault_none hmem hfault (by simp [hrunning]) (by simp [hhold])

theorem State.loadWords_wf {s : State} (hs : s.mem.wf) (a : Word) (ws : List Word) : (s.loadWords a ws).mem.wf := by
  induction ws generalizing s a with
  | nil => exact hs
  | cons w ws ih => exact ih (Memory.write_wf a w hs) (a + 1#16)

theorem State.reset_inv : State.reset.Inv := .of_fetching Memory.nil_wf rfl

/-- An image changes memory alone, and any agent may be attached. -/
theorem State.load_inv (image : Image) (agent : InputAgent) : ((State.reset.load image).setInput agent).Inv := by
  refine .of_fetching (State.loadWords_wf Memory.nil_wf image.origin image.words) ?_
  rw [State.load_frame]
  rfl

end Sys2Proof.Machine

namespace Sys2Proof.Proofs

open Sys2Proof.Machine

/-- Settles O18: the reset state fetches next, and its memory lists nothing. -/
theorem resetMeetsInvariant : Obligations.ResetMeetsInvariant := State.reset_inv

/-- Settles O19: the boot state is the reset state with an image loaded and an agent attached. -/
theorem bootMeetsInvariant : Obligations.BootMeetsInvariant := by
  rintro image agent _ ⟨⟩
  exact State.load_inv image agent

end Sys2Proof.Proofs
end

section
/-! Widening a value to a word: sign extension (00_scope.md R14) and characters (43_trap_system.md R185). -/

namespace Sys2Proof.Machine

theorem sext_of_msb_false {n : Nat} {v : BitVec n} (hmsb : v.msb = false) : sext v = v.setWidth 16 :=
  BitVec.signExtend_eq_setWidth_of_msb_false hmsb

/-- Below bit n both sides are `v`, from there on both are ones. -/
theorem sext_of_msb_true {n : Nat} {v : BitVec n} (hmsb : v.msb = true) :
    sext v = ((0xFFFF : Word) <<< n) ||| v.setWidth 16 := by
  have hones (i : Nat) (hi : i < 16) : (0xFFFF : Word)[i] = true := BitVec.getElem_allOnes i hi
  ext k hk
  rw [sext, BitVec.getElem_signExtend, BitVec.getElem_or, BitVec.getElem_shiftLeft, BitVec.getElem_setWidth]
  by_cases hlow : k < n
  · simp [hlow]
  · rw [hones]
    simp [hlow, hmsb]

theorem sext_word (v : Word) : sext v = v := BitVec.signExtend_eq v

theorem charWord_toNat (c : Byte) : (charWord c).toNat = c.toNat := BitVec.toNat_setWidth_of_le (by decide)

end Sys2Proof.Machine

namespace Sys2Proof.Proofs

open Sys2Proof.Machine

/-- Settles O7, by the top bit of the value. -/
theorem signExtensionFormula : Obligations.SignExtensionFormula := by
  refine ⟨fun n v _ _ => ?_, sext_word, charWord_toNat⟩
  rw [← BitVec.msb_eq_getLsbD_last]
  cases hmsb : v.msb with
  | false => exact sext_of_msb_false hmsb
  | true => exact sext_of_msb_true hmsb

end Sys2Proof.Proofs
end
